-- ==== Sys2Proof/Word.lean ====
section
/-! DEFINITION. The two word types of the block: every quantity is unsigned (spec/00_scope.md R7) and is
either one stream byte (BYTE_W = 8) or the 16-bit length (LEN_W = 16, R5). -/

namespace Sys2Proof

/-- One byte of the stream, of the payload buffer or of the running checksum (R5: BYTE_W = CKS_W = 8). -/
abbrev Byte := BitVec 8

/-- The width of the length field and of `remaining_length` (R5: LEN_W = 16). -/
abbrev Half := BitVec 16

end Sys2Proof
end

