-- ==== Sys2Proof/Machine/ChecksumAccumulator.lean ====
section
/-! DEFINITION. The ChecksumAccumulator (spec/41_checksum.md): three pure functions over bytes, shared by the
parser, the FrameEncoder and the frame formats (R146). -/

namespace Sys2Proof

/-- `compute` (R140): the checksum byte of a sum, `0xFF - (s mod 256)`. -/
def compute (s : Byte) : Byte := 0xFF - s

/-- `validate` (R141): `0xFF - (s mod 256) == c`. -/
def validate (s c : Byte) : Bool := compute s == c

/-- `accumulate` (R142): `(s + b) mod 256`, unsigned, the carry discarded. -/
def accumulate (s b : Byte) : Byte := s + b

/-- The running sum over the frame-data bytes `bs`, which starts at 0x00 (R143). -/
def sumBytes (bs : List Byte) : Byte := bs.foldl accumulate 0x00

end Sys2Proof
end

