-- ==== Sys2Proof/Config.lean ====
section
/-! DEFINITION. The implementation parameters of spec/00_scope.md R5 and the frame-type values that
spec/30_encoding.md R78 names. The spec leaves no parameter open and needs no free value
(spec/93_implementation_defined.md, end of part 1), so every constant here has a body. -/

namespace Sys2Proof.Config

/-- START, the start marker (R5, R76). -/
abbrev startMarker : Byte := 0x7E

/-- PAYLOAD_CAP, the capacity of the payload buffer in bytes (R5, R51, decision D7). -/
abbrev payloadCap : Nat := 65534

/-- AT_API_ID, the frame type of the outbound AT-command frame (R5, R78). -/
abbrev atApiId : Byte := 0x08

/-- AT_FRAME_ID (R5). -/
abbrev atFrameId : Byte := 0x01

/-- AT_LENGTH, the length field of the AT-command frame (R5). -/
abbrev atLength : Half := 0x0004

/-- The frame type of an AT command response (R78, R157). -/
abbrev atResponseType : Byte := 0x88

/-- The frame type of an IO sample (R78, R153). -/
abbrev ioSampleType : Byte := 0x92

end Sys2Proof.Config
end

