-- ==== Sys2Proof/Syntax.lean ====
section
/-! DEFINITION. The instructions: one constructor per row of spec/opcode_table.json, in the table's order.
By spec/00_scope.md R8 an "instruction" is one byte-step with its decode context (thirteen step classes,
spec/30_encoding.md R74), a command (R83), or one of the five frame and payload formats the table lists. -/

namespace Sys2Proof

/-- The 21 rows of the opcode table. An operand is what the row's encoding leaves free: the input byte `b` of a
step class whose row does not fix it, the ports of BUILD_AT, the fields of a frame, the payload of a raw frame. -/
inductive Instr where
  /-- `START` (R101): 0x7E in Idle. -/
  | start
  /-- `RESTART` (R104): 0x7E in Rejected. -/
  | restart
  /-- `PREEMPT` (R103): 0x7E while a frame is in progress. -/
  | preempt
  /-- `GARBAGE` (R102): any other byte in Idle. -/
  | garbage (b : Byte)
  /-- `ABSORB` (R105): any other byte in Rejected. -/
  | absorb (b : Byte)
  /-- `LEN_HI` (R106): the high length byte. -/
  | lenHi (b : Byte)
  /-- `LEN_LO_ZERO` (R108): the low length byte 0x00 completing a zero length. -/
  | lenLoZero
  /-- `LEN_LO` (R107): the low length byte, non-zero length. -/
  | lenLo (b : Byte)
  /-- `TYPE_ZERO` (R110): the frame-type byte is 0x00. -/
  | typeZero
  /-- `TYPE` (R109): the frame-type byte, non-zero. -/
  | typeByte (b : Byte)
  /-- `DATA` (R111): a payload byte. -/
  | data (b : Byte)
  /-- `CKSUM_OK` (R112): a valid checksum byte. -/
  | cksumOk (b : Byte)
  /-- `CKSUM_BAD` (R113): an invalid checksum byte. -/
  | cksumBad (b : Byte)
  /-- `RESET` (R120): `rst` = 1. -/
  | reset
  /-- `NODATA` (R119): `rst` = 0 and `in_valid` = 0. -/
  | noData
  /-- `BUILD_AT` (R170): the ports `enc_c0`, `enc_c1` of the FrameEncoder. -/
  | buildAt (c0 c1 : Byte)
  /-- `API_FRAME` (R70): a wire frame, its length and checksum being those of its frame type and payload. -/
  | apiFrame (frameType : Byte) (payload : List Byte)
  /-- `AT_COMMAND` (R79): the eight-byte AT-command frame with its two command bytes and its checksum byte. -/
  | atCommand (c0 c1 checksum : Byte)
  /-- `AT_RESPONSE` (R157): the payload of a raw frame of type 0x88. -/
  | atResponse (payload : List Byte)
  /-- `IO_SAMPLE` (R153): the payload of a raw frame of type 0x92. -/
  | ioSample (payload : List Byte)
  /-- `OPAQUE` (R152): a raw frame of any other type. -/
  | opaqueFrame (frameType : Byte) (payload : List Byte)
  deriving DecidableEq, Repr

end Sys2Proof
end

