-- ==== Sys2Proof/WellFormed.lean ====
section
/-! DEFINITION. Which terms of `Instr` are instructions: the operand conditions of the rules' "Operands" lines
(spec/40_frame_state_machine.md R101 to R113), the bound of the frame notation (spec/30_encoding.md R85) and the
dispatch condition of the fallback payload format (spec/42_frame_decoder.md R152). -/

namespace Sys2Proof

open Config

/-- The two command bytes, where a frame type and payload have the shape of the AT-command frame (R79:
`frame_type` = 0x08, `payload` = `[0x01, cmd_char_0, cmd_char_1]`). Such a wire frame is a word of the row
`AT_COMMAND`, the more specific of the two frame rows (notes/assumptions/9.md). -/
def atShape (frameType : Byte) (payload : List Byte) : Option (Byte × Byte) :=
  match payload with
  | [f, c0, c1] => if frameType = atApiId ∧ f = atFrameId then some (c0, c1) else none
  | _ => none

/-- The operand conditions, constructor by constructor. -/
def Instr.wellFormed : Instr → Bool
  | .start => true
  | .restart => true
  | .preempt => true
  | .garbage b => b != startMarker
  | .absorb b => b != startMarker
  | .lenHi b => b != startMarker
  | .lenLoZero => true
  | .lenLo b => b != startMarker
  | .typeZero => true
  | .typeByte b => b != startMarker && b != 0x00
  | .data b => b != startMarker
  | .cksumOk b => b != startMarker
  | .cksumBad b => b != startMarker
  | .reset => true
  | .noData => true
  | .buildAt _ _ => true
  | .apiFrame t p => decide (p.length ≤ payloadCap) && (atShape t p).isNone
  | .atCommand _ _ _ => true
  | .atResponse _ => true
  | .ioSample _ => true
  | .opaqueFrame t _ => t != atResponseType && t != ioSampleType

/-- `i` is an instruction. -/
abbrev WellFormed (i : Instr) : Prop := i.wellFormed = true

end Sys2Proof
end

