-- ==== Sys2Proof/Decode.lean ====
section
/-! DEFINITION. Encodings and their decoder. What is decoded is one `Code`: the 14-bit decode word of a byte-step
(spec/30_encoding.md R74), the selecting ports of a command (R83), the bytes of a wire frame (R70, R79), or the
frame data of a raw frame, its type byte first (spec/42_frame_decoder.md R152). The decoder is total and rejects
by name; the encoder is written from the same rows. -/

namespace Sys2Proof

open Config

/-- What an instruction is decoded from, one constructor per "format" of spec/opcode_table.json (the command rows
being selected by two different groups of ports, R83). -/
inductive Code where
  /-- The decode word `W` of a byte-step (R74). -/
  | stepWord (w : BitVec 14)
  /-- The ports `rst` and `in_valid` (R83). -/
  | ports (rst inValid : Bool)
  /-- The encoder's ports `enc_c0`, `enc_c1` (R83). -/
  | encoderPorts (c0 c1 : Byte)
  /-- The bytes of a wire frame, in the order sent (R70). -/
  | wire (bytes : List Byte)
  /-- The frame data of a raw frame: the frame-type byte, then the payload (R150). -/
  | frameData (bytes : List Byte)
  deriving DecidableEq, Repr

/-- Why a code is no instruction. -/
inductive DecodeError where
  /-- The state code of the decode word is 6 or 7, which the block never holds (R21, R74, U13). -/
  | reservedStateCode
  /-- `rst` = 0 and `in_valid` = 1 select a byte-step, which is decoded from its decode word (R83). -/
  | portsSelectByteStep
  /-- Fewer bytes than a start marker, a length, and a frame type (R71). -/
  | truncatedFrame
  /-- The first byte of a wire frame is not 0x7E (R71). -/
  | noStartMarker
  /-- The length field is 0x0000, which is illegal (R73). -/
  | zeroLength
  /-- The bytes after the length are not `L` frame-data bytes and one checksum byte (R70). -/
  | lengthMismatch
  /-- The last byte is not the checksum of the frame data (R70). -/
  | wrongChecksum
  /-- A raw frame without a frame-type byte (R150). -/
  | noFrameType
  deriving DecidableEq, Repr

/-! ### The decode word -/

/-- The decode word from its parts (R74): `W[13:11]` the state code, `W[10]` ftv, `W[9]` lz, `W[8]` ckok,
`W[7:0]` the input byte. -/
def packStepWord (stCode : BitVec 3) (ftv lz ckok : Bool) (b : Byte) : BitVec 14 :=
  stCode ++ BitVec.ofBool ftv ++ BitVec.ofBool lz ++ BitVec.ofBool ckok ++ b

/-- `W[13:11]`, the state code. -/
def stCodeOf (w : BitVec 14) : BitVec 3 := w.extractLsb' 11 3

/-- `W[10]`, the frame-type-valid flag. -/
def ftvOf (w : BitVec 14) : Bool := w.getLsbD 10

/-- `W[9]`, "the high length byte is zero". -/
def lzOf (w : BitVec 14) : Bool := w.getLsbD 9

/-- `W[8]`, "the input byte is the valid checksum". -/
def ckokOf (w : BitVec 14) : Bool := w.getLsbD 8

/-- `W[7:0]`, the input byte. -/
def byteOf (w : BitVec 14) : Byte := w.extractLsb' 0 8

/-- One row of the step-class table (R74): mask, match, and the instruction made of the input byte. -/
structure StepRow where
  mask : BitVec 14
  value : BitVec 14
  instr : Byte → Instr

/-- The thirteen step classes in the order of the table, which is their priority (R74, R75). -/
def stepRows : List StepRow :=
  [⟨0x38FF, 0x007E, fun _ => .start⟩,
   ⟨0x38FF, 0x287E, fun _ => .restart⟩,
   ⟨0x00FF, 0x007E, fun _ => .preempt⟩,
   ⟨0x3800, 0x0000, .garbage⟩,
   ⟨0x3800, 0x2800, .absorb⟩,
   ⟨0x3800, 0x0800, .lenHi⟩,
   ⟨0x3AFF, 0x1200, fun _ => .lenLoZero⟩,
   ⟨0x3800, 0x1000, .lenLo⟩,
   ⟨0x3CFF, 0x1800, fun _ => .typeZero⟩,
   ⟨0x3C00, 0x1800, .typeByte⟩,
   ⟨0x3C00, 0x1C00, .data⟩,
   ⟨0x3900, 0x2100, .cksumOk⟩,
   ⟨0x3800, 0x2000, .cksumBad⟩]

/-- `W & mask = match` (R74). -/
def StepRow.selects (r : StepRow) (w : BitVec 14) : Bool := w &&& r.mask == r.value

/-- The class of a byte-step: the first row that selects `w` (R74, R75). State codes 6 and 7 are rejected, although
PREEMPT's mask does not test them, because R103 and R74 give that row to RLH, RLL, RP and RC alone
(notes/assumptions/8.md). -/
def decodeStepWord (w : BitVec 14) : Except DecodeError Instr :=
  if 6 ≤ (stCodeOf w).toNat then .error .reservedStateCode
  else match stepRows.find? (·.selects w) with
    | some r => .ok (r.instr (byteOf w))
    | none => .error .reservedStateCode

/-! ### Wire frames -/

/-- The two length bytes of a frame with an `n`-byte payload, high byte first (R72, R85: `L` = n + 1). -/
def lengthBytes (n : Nat) : List Byte :=
  [(BitVec.ofNat 16 (n + 1)).extractLsb' 8 8, (BitVec.ofNat 16 (n + 1)).extractLsb' 0 8]

/-- The wire frame of a frame type and payload, `FRAME(t, p)` (R70, R85). -/
def frameBytes (t : Byte) (p : List Byte) : List Byte :=
  startMarker :: lengthBytes p.length ++ t :: p ++ [compute (sumBytes (t :: p))]

/-- The eight bytes of the AT-command frame, first byte first, with the given checksum byte (R79). -/
def atFrameBytes (c0 c1 k : Byte) : List Byte :=
  [startMarker, 0x00, 0x04, atApiId, atFrameId, c0, c1, k]

/-- A wire frame (R70, R71). The AT-command frame is recognised before the general format, and its checksum byte is
carried, not tested: the mask of its row does not cover it (notes/assumptions/9.md). -/
def decodeWire (bs : List Byte) : Except DecodeError Instr :=
  match bs with
  | s :: hi :: lo :: t :: rest =>
    if s ≠ startMarker then .error .noStartMarker
    else if (hi ++ lo).toNat = 0 then .error .zeroLength
    else if rest.length ≠ (hi ++ lo).toNat then .error .lengthMismatch
    else match atShape t rest.dropLast with
      | some (c0, c1) => .ok (.atCommand c0 c1 (rest.getLastD 0))
      | none =>
        if rest.getLastD 0 = compute (sumBytes (t :: rest.dropLast)) then .ok (.apiFrame t rest.dropLast)
        else .error .wrongChecksum
  | _ => .error .truncatedFrame

/-! ### Raw frames -/

/-- The payload format of a raw frame is a function of its frame type alone (R152, R161). -/
def decodeFrameData (bs : List Byte) : Except DecodeError Instr :=
  match bs with
  | [] => .error .noFrameType
  | t :: p =>
    if t = atResponseType then .ok (.atResponse p)
    else if t = ioSampleType then .ok (.ioSample p)
    else .ok (.opaqueFrame t p)

/-! ### All formats -/

/-- The decoder. -/
def decode : Code → Except DecodeError Instr
  | .stepWord w => decodeStepWord w
  | .ports true _ => .ok .reset
  | .ports false false => .ok .noData
  | .ports false true => .error .portsSelectByteStep
  | .encoderPorts c0 c1 => .ok (.buildAt c0 c1)
  | .wire bs => decodeWire bs
  | .frameData bs => decodeFrameData bs

/-- The encoder. Where a row leaves bits of the decode word free (`x` in the table), the word has 0 there, and
PREEMPT, which belongs to four states, is encoded with the first of them (RLH). -/
def encode : Instr → Code
  | .start => .stepWord (packStepWord 0 false false false 0x7E)
  | .restart => .stepWord (packStepWord 5 false false false 0x7E)
  | .preempt => .stepWord (packStepWord 1 false false false 0x7E)
  | .garbage b => .stepWord (packStepWord 0 false false false b)
  | .absorb b => .stepWord (packStepWord 5 false false false b)
  | .lenHi b => .stepWord (packStepWord 1 false false false b)
  | .lenLoZero => .stepWord (packStepWord 2 false true false 0x00)
  | .lenLo b => .stepWord (packStepWord 2 false false false b)
  | .typeZero => .stepWord (packStepWord 3 false false false 0x00)
  | .typeByte b => .stepWord (packStepWord 3 false false false b)
  | .data b => .stepWord (packStepWord 3 true false false b)
  | .cksumOk b => .stepWord (packStepWord 4 false false true b)
  | .cksumBad b => .stepWord (packStepWord 4 false false false b)
  | .reset => .ports true false
  | .noData => .ports false false
  | .buildAt c0 c1 => .encoderPorts c0 c1
  | .apiFrame t p => .wire (frameBytes t p)
  | .atCommand c0 c1 k => .wire (atFrameBytes c0 c1 k)
  | .atResponse p => .frameData (atResponseType :: p)
  | .ioSample p => .frameData (ioSampleType :: p)
  | .opaqueFrame t p => .frameData (t :: p)

/-! ### The host's table words -/

/-- `n` bytes of the number `w`, the most significant byte first: the numbering of the row AT_COMMAND, whose bits
63:56 are the start marker. -/
def bytesOfNat : Nat → Nat → List Byte
  | 0, _ => []
  | n + 1, w => BitVec.ofNat 8 (w / 256 ^ n) :: bytesOfNat n w

/-- The code that a table word stands for (notes/assumptions/11.md). Sixteen bits are a decode word. Eight bits are,
in the numbering of their rows, NODATA (`rst` and `in_valid` 0), RESET (bit 1), PREEMPT (its row gives the input byte
alone) or the frame type of a raw frame, whose payload is then fifteen zero bytes, the longest fixed format. Longer
words are wire frames. -/
def codeOfTableWord (nbits w : Nat) : Option Code :=
  if nbits = 8 then
    if w = 0x00 then some (.ports false false)
    else if w = 0x02 then some (.ports true false)
    else if w = 0x7E then some (encode .preempt)
    else some (.frameData (BitVec.ofNat 8 w :: List.replicate 15 0x00))
  else if nbits = 16 then
    if w < 2 ^ 14 then some (.stepWord (BitVec.ofNat 14 w)) else none
  else some (.wire (bytesOfNat (nbits / 8) w))

/-- The instruction this decoder reads from a table word. -/
def decodeTableWord (nbits w : Nat) : Option Instr :=
  match codeOfTableWord nbits w with
  | some c => (decode c).toOption
  | none => none

end Sys2Proof
end

