-- ==== Sys2Proof/Machine/State.lean ====
section
/-! DEFINITION. The state of the machine as plain data: ParserState, the whole architectural state of the block
(spec/10_state.md R20), and beside it the two fields of the host interface, the stimuli still to come and the report
of the most recent step, which the spec counts as inputs and outputs and not as state (R35, notes/assumptions/1.md). -/

namespace Sys2Proof.Machine

/-- The state tag `st`: six values, not a number (R21). -/
inductive Tag where
  /-- Idle: no frame in progress, waiting for a start marker. -/
  | idle
  /-- RLH, ReadLengthHigh: the next byte is the high length byte. -/
  | readLengthHigh
  /-- RLL, ReadLengthLow: the next byte is the low length byte. -/
  | readLengthLow
  /-- RP, ReadPayload: the next byte is the frame-type byte (`ftv` = 0) or a payload byte (`ftv` = 1). -/
  | readPayload
  /-- RC, ReadChecksum: the next byte is the checksum byte. -/
  | readChecksum
  /-- REJ, Rejected: every byte is absorbed until the next start marker. -/
  | rejected
  deriving DecidableEq, Repr

/-- The payload buffer space (R50, R51): the listed bytes by address. An address that is not listed is not part of
the state (R25) and reads as no value. -/
abbrev Memory := List Host.Cell

/-- The canonical form: the listed addresses are exactly 0, 1, …, in rising order, so that the buffer is the byte
sequence of R25 and equal buffers are equal lists. -/
abbrev Memory.wf (m : Memory) : Prop := m.map Prod.fst = List.range m.length

/-- ParserState, "the architectural state of the block" (R20). `blen` is the number of bytes in `buf`
(`ParserState.blen`): it is stored once, with the buffer. -/
structure ParserState where
  /-- The state tag (R21). -/
  st : Tag
  /-- `remaining_length` (R22). -/
  rem : Half
  /-- `running_checksum` (R23). -/
  cks : Byte
  /-- Frame type valid: the Some / None of `frame_type_byte` (R24). -/
  ftv : Bool
  /-- The byte of `frame_type_byte` (R24). -/
  ft : Byte
  /-- `payload_buffer` (R25). -/
  buf : Memory
  deriving DecidableEq, Repr

/-- A RawFrame: the frame type and the payload of a validated frame (R53). Nothing here bounds the payload
(notes/assumptions/20.md). -/
structure RawFrame where
  frameType : Byte
  payload : List Byte
  deriving DecidableEq, Repr

/-- FrameEvent, the result of one byte-step (R82, R100). `cont` is the source's `Continue`. -/
inductive FrameEvent where
  | cont
  | frameComplete (raw : RawFrame)
  | checksumFailed
  | zeroLengthFrame
  | zeroFrameType
  | framePreempted
  deriving DecidableEq, Repr

/-- FramingError, the four exceptions of the parser (R180, R181). -/
inductive FramingError where
  | checksumFailed
  | zeroLengthFrame
  | zeroFrameType
  | framePreempted
  deriving DecidableEq, Repr

/-- The result of BUILD_AT (R170): an error, or the bytes `enc_frame[0]`, `enc_frame[1]`, … -/
inductive EncodeResult where
  | invalidCommand
  | frame (bytes : List Byte)
  deriving DecidableEq, Repr

/-- The result code of an AT command response (R159). -/
inductive AtResult where
  | ok
  | error
  | invalidCommand
  | invalidParameter
  | txFailure
  | unknown (code : Byte)
  deriving DecidableEq, Repr

/-- The fields of an IO sample (R151, R153). There are no analog fields (R156). -/
structure IoSample where
  senderAddress : BitVec 64
  sourceNetworkAddress : Half
  receiveOptions : Byte
  sampleCount : Byte
  digitalMask : Half
  analogMask : Byte
  digitalSamples : Half
  deriving DecidableEq, Repr

/-- The fields of an AT command response (R151, R157). -/
structure AtCommandResponse where
  frameId : Byte
  command0 : Byte
  command1 : Byte
  result : AtResult
  extraBytes : List Byte
  deriving DecidableEq, Repr

/-- Frame, the typed result of the reference decoder (R151). The frame type of the two specialised variants is the
variant's (conflict C4). -/
inductive Frame where
  | opaqueFrame (frameType : Byte) (payload : List Byte)
  | ioSample (sample : IoSample)
  | atCommandResponse (response : AtCommandResponse)
  deriving DecidableEq, Repr

/-- What `decode : RawFrame → Frame | MalformedFrame` returns (R150, R160). The source does not define the reason of
a MalformedFrame and no rule depends on it (decision D17). -/
inductive DecodeResult where
  | frame (f : Frame)
  | malformedFrame
  deriving DecidableEq, Repr

/-- What the environment does to the block in one step (R11): the parser's ports, the encoder's ports, and, as the
formats of the opcode table ask, a frame written in the notation of R85 or a raw frame given to the decoder. -/
inductive Stimulus where
  /-- The ports `rst`, `in_valid`, `in_byte` (R12), and with them, where the environment applies two bytes to the
  FrameEncoder in the same step (R10: "concurrently with a parser step"), the ports `enc_c0`, `enc_c1`. -/
  | parser (rst inValid : Bool) (inByte : Byte) (enc : Option (Byte × Byte))
  /-- The ports `enc_c0`, `enc_c1` (R12) alone. -/
  | encoder (c0 c1 : Byte)
  /-- `FRAME(t, p)` (R85): a whole frame to be presented byte by byte. -/
  | frame (frameType : Byte) (payload : List Byte)
  /-- The eight bytes of an AT-command frame (R79) to be presented byte by byte. -/
  | atFrame (c0 c1 checksum : Byte)
  /-- A raw frame given to the reference decoder (R150). -/
  | rawFrame (raw : RawFrame)
  deriving DecidableEq, Repr

/-- What a step shows on the output ports (R12), unit by unit. Outside its validity an output has no value (decision
D26). -/
structure Output where
  /-- The event of a byte-step. -/
  event : Option FrameEvent
  /-- The result of the FrameEncoder, which may stand beside an event (R10). -/
  encoded : Option EncodeResult
  /-- The result of the reference decoder. -/
  decoded : Option DecodeResult
  deriving DecidableEq, Repr

/-- No output is meaningful. -/
def Output.quiet : Output := { event := none, encoded := none, decoded := none }

/-- The machine: ParserState, the stimuli still to come (oldest first), and the report of the most recent step, which
the next step replaces (events are not latched, R219). -/
structure State where
  parser : ParserState
  inputs : List Stimulus
  out : Output
  deriving DecidableEq, Repr

/-- Why the machine stops. Byte-steps never stop it (R118, R193). -/
inductive Fault where
  /-- Raised by `step` for a decode word that selects no step class, which needs a state code 6 or 7: "no rule
  applies" (U13). Safe: the tag is an enumeration, so no state has such a decode word. -/
  | noStepClass
  deriving DecidableEq, Repr

/-- Why the machine refuses. -/
inductive Refusal where
  /-- Raised by `exec` for an instruction that has no meaning yet. Safe. -/
  | notModelled (mnemonic : String)
  /-- Raised by `execApiFrame` for a payload longer than 65534 bytes, for which the notation `FRAME(t, p)` is not
  defined (R85). Safe. -/
  | frameUndefined
  /-- Raised by `step` for a stimulus whose code the decoder rejects: the frame notation beyond 65534 payload bytes,
  which no length field announces (R72, R85). Safe. -/
  | notDecodable (e : DecodeError)
  deriving DecidableEq, Repr

/-- ParserState after power-on or RESET (R34, R210). -/
def ParserState.reset : ParserState :=
  { st := .idle, rem := 0x0000, cks := 0x00, ftv := false, ft := 0x00, buf := [] }

/-- The machine right after reset: the parser as R34 says, no stimulus presented, nothing reported
(notes/assumptions/13.md). -/
def State.reset : State := { parser := .reset, inputs := [], out := .quiet }

end Sys2Proof.Machine
end

