-- ==== Sys2Proof/Machine/Flags.lean ====
section
/-! DEFINITION. The block's only flag is `ftv`, a field of ParserState (spec/10_state.md R24, R29). Two conditions are
computed within a step and not stored (R29); a third quantity the decode reads is the high length byte (R74). The
numeric codes of tags and events (R21, R82) and the garbage predicate (R102) stand here too. -/

namespace Sys2Proof.Machine

/-- The 3-bit code of a tag on `st_out` and in the decode word (R21). -/
def Tag.code : Tag → BitVec 3
  | .idle => 0
  | .readLengthHigh => 1
  | .readLengthLow => 2
  | .readPayload => 3
  | .readChecksum => 4
  | .rejected => 5

/-- The tag of a code; codes 6 and 7 are never held (R21). -/
def Tag.ofCode (c : BitVec 3) : Option Tag :=
  if c = 0 then some .idle
  else if c = 1 then some .readLengthHigh
  else if c = 2 then some .readLengthLow
  else if c = 3 then some .readPayload
  else if c = 4 then some .readChecksum
  else if c = 5 then some .rejected
  else none

/-- A frame is in progress: the states in which a start marker preempts (R103). -/
def Tag.inProgress : Tag → Bool
  | .readLengthHigh | .readLengthLow | .readPayload | .readChecksum => true
  | .idle | .rejected => false

/-- The 3-bit code of an event on the port `ev` (R82). -/
def FrameEvent.code : FrameEvent → BitVec 3
  | .cont => 0
  | .frameComplete _ => 1
  | .checksumFailed => 2
  | .zeroLengthFrame => 3
  | .zeroFrameType => 4
  | .framePreempted => 5

/-- `lz` (R74): the high length byte is zero. With the low byte of `rem` zero in RLL (R33) and the input byte zero
it is the condition "length is zero" of R108. -/
def ParserState.lengthHighZero (p : ParserState) : Bool := p.rem.extractLsb' 8 8 == 0x00#8

/-- `ckok` (R74): the input byte is the valid checksum, `validate(cks, b)` (R112, R141). -/
def ParserState.checksumValid (p : ParserState) (b : Byte) : Bool := validate p.cks b

/-- `GarbageByte(st_before, b)` (R102): what the environment evaluates to recognise a garbage byte. -/
def garbageByte (stBefore : Tag) (b : Byte) : Bool := stBefore == .idle && b != Config.startMarker

end Sys2Proof.Machine
end

