-- ==== Sys2Proof/Machine/Operands.lean ====
section
/-! DEFINITION. Operand forms: how the code of a stimulus is formed from the state before the step
(spec/30_encoding.md R74, R83), how the length is assembled (R72), how the decoder's multi-byte fields are
(spec/42_frame_decoder.md R153), and how a code is put in place to be fetched next. -/

namespace Sys2Proof.Machine

/-- The decode word of the input byte `b` in the parser state `p`, before the step (R74). -/
def ParserState.decodeWord (p : ParserState) (b : Byte) : BitVec 14 :=
  packStepWord p.st.code p.ftv p.lengthHighZero (p.checksumValid b) b

/-- The code that a stimulus presents: `rst` has priority, then `in_valid` selects a byte-step (R83). -/
def Stimulus.code (p : ParserState) : Stimulus → Code
  | .parser rst inValid b _ => if inValid && !rst then .stepWord (p.decodeWord b) else .ports rst inValid
  | .encoder c0 c1 => .encoderPorts c0 c1
  | .frame t payload => .wire (frameBytes t payload)
  | .atFrame c0 c1 k => .wire (atFrameBytes c0 c1 k)
  | .rawFrame raw => .frameData (raw.frameType :: raw.payload)

/-- The stimulus that presents the byte `b` (R11 a). -/
def Stimulus.byte (b : Byte) : Stimulus := .parser false true b none

/-- `zext_16(b) << 8` (R72, R106). -/
def lengthFromHigh (b : Byte) : Half := b.setWidth 16 <<< 8

/-- `rem | zext_16(b)` (R72, R107). -/
def lengthWithLow (rem : Half) (b : Byte) : Half := rem ||| b.setWidth 16

/-- A two-byte field, the first byte the more significant (R153). -/
def be16 (b0 b1 : Byte) : Half := b0 ++ b1

/-- An eight-byte field, the first byte the most significant (R153). -/
def be64 (b0 b1 b2 b3 b4 b5 b6 b7 : Byte) : BitVec 64 :=
  b0 ++ b1 ++ b2 ++ b3 ++ b4 ++ b5 ++ b6 ++ b7

/-- `rem` with the high byte zero (a last byte to come in RP, else nothing) or non-zero, as `lz` says. -/
def contextRem (tag : Tag) (lz : Bool) : Half :=
  if lz then (if tag = .readPayload then 0x0001 else 0x0000) else 0x0100

/-- The parser state in which the input byte of `w` has the decode word `w` (R74); none for a reserved state code. -/
def ParserState.inContext (p : ParserState) (w : BitVec 14) : Option ParserState :=
  (Tag.ofCode (stCodeOf w)).map fun tag =>
    { p with
      st := tag
      ftv := ftvOf w
      rem := contextRem tag (lzOf w)
      cks := if ckokOf w then compute (byteOf w) else compute (byteOf w) + 1 }

/-- The state whose next fetched code is `c`: the stimulus of `c` is presented next, in the decode context that `c`
asks for. A code that no stimulus presents leaves the state as it is. -/
def State.place (s : State) (c : Code) : State :=
  match c with
  | .stepWord w =>
    match s.parser.inContext w with
    | some p => { s with parser := p, inputs := .byte (byteOf w) :: s.inputs }
    | none => s
  | .ports rst inValid => { s with inputs := .parser rst inValid 0x00 none :: s.inputs }
  | .encoderPorts c0 c1 => { s with inputs := .encoder c0 c1 :: s.inputs }
  | .wire bs =>
    match decodeWire bs with
    | .ok (.apiFrame t payload) => { s with inputs := .frame t payload :: s.inputs }
    | .ok (.atCommand c0 c1 k) => { s with inputs := .atFrame c0 c1 k :: s.inputs }
    | _ => s
  | .frameData (t :: payload) => { s with inputs := .rawFrame ⟨t, payload⟩ :: s.inputs }
  | .frameData [] => s

end Sys2Proof.Machine
end

