-- ==== Sys2Proof/Machine/Ops.lean ====
section
/-! DEFINITION. The operations the meanings share: the payload buffer's two accesses (spec/20_memory.md R52, R53),
clearing (spec/10_state.md R26), consuming a frame-data byte (R109, R111), raising an exception and resuming after
one (spec/60_exceptions.md R190, R192), and reporting on the output ports (spec/00_scope.md R12). -/

namespace Sys2Proof.Machine

/-- The outcome of a step or of a meaning. -/
abbrev Outcome := Host.Outcome State Fault Refusal

/-! ### The payload buffer -/

/-- `MemRead(a, 1)` (R53). An unlisted address is not part of the state (R25): no value. -/
def Memory.read : Memory → Nat → Option Byte
  | [], _ => none
  | (k, v) :: m, a => if a = k then some v else Memory.read m a

/-- `MemWrite(a, 1, b)` (R52), the listed addresses kept in rising order. -/
def Memory.write : Memory → Nat → Byte → Memory
  | [], a, b => [(a, b)]
  | (k, v) :: m, a, b =>
    if a < k then (a, b) :: (k, v) :: m
    else if a = k then (a, b) :: m
    else (k, v) :: Memory.write m a b

/-- The bytes of the buffer in index order (R53). -/
def Memory.bytes (m : Memory) : List Byte := m.map Prod.snd

/-- `blen`, the current length of the payload buffer (R20, R25). -/
def ParserState.blen (p : ParserState) : Nat := p.buf.length

/-- The append, the only write (R52): `MemWrite(blen, 1, b); blen <- blen + 1`. -/
def ParserState.append (p : ParserState) (b : Byte) : ParserState :=
  { p with buf := p.buf.write p.blen b }

/-- Raw frame assembly, the only read (R53): the frame type and the payload bytes in index order. -/
def ParserState.rawFrame (p : ParserState) : RawFrame := ⟨p.ft, p.buf.bytes⟩

/-! ### ParserState -/

/-- `clear()` (R26): the transient fields; the tag is not touched. -/
def ParserState.clear (p : ParserState) : ParserState :=
  { p with rem := 0x0000, cks := 0x00, ftv := false, ft := 0x00, buf := [] }

/-- `st <- t`. -/
def ParserState.goto (p : ParserState) (t : Tag) : ParserState := { p with st := t }

/-- What every frame-data byte does (R109, R111): it is added to the checksum, counted, and the last one leads to
the checksum state. -/
def ParserState.consume (p : ParserState) (b : Byte) : ParserState :=
  { p with
    cks := accumulate p.cks b
    rem := p.rem - 1
    st := if p.rem - 1 = 0 then .readChecksum else .readPayload }

/-- A new frame whose start marker has just been consumed: `clear(); st <- RLH` (R101, R103, R104). -/
def ParserState.startFrame (p : ParserState) : ParserState := p.clear.goto .readLengthHigh

/-! ### Reporting -/

/-- The end of a byte-step: the state after it and its one event (R9). -/
def State.report (s : State) (p : ParserState) (e : FrameEvent) : State :=
  { s with parser := p, out := { s.out with event := some e } }

/-- The end of a step of the parser that reports no event (R119, R120, D26). -/
def State.quiet (s : State) (p : ParserState) : State :=
  { s with parser := p, out := { s.out with event := none } }

/-! ### Exceptions -/

/-- The event that reports a framing error (R181). -/
def FramingError.event : FramingError → FrameEvent
  | .checksumFailed => .checksumFailed
  | .zeroLengthFrame => .zeroLengthFrame
  | .zeroFrameType => .zeroFrameType
  | .framePreempted => .framePreempted

/-- The tag a framing error leaves (R181, R190 b). -/
def FramingError.tagAfter : FramingError → Tag
  | .checksumFailed => .idle
  | .zeroLengthFrame => .rejected
  | .zeroFrameType => .rejected
  | .framePreempted => .readLengthHigh

/-- Raising an exception (R190): the transient fields are cleared, the tag is set, the event is the exception, and
nothing else; nothing is saved. -/
def State.raise (s : State) (x : FramingError) : State :=
  s.report (s.parser.clear.goto x.tagAfter) x.event

/-- Return and resynchronisation (R192): reception resumes with the next start marker, and nothing is restored. -/
def State.resume (s : State) : State := s.report s.parser.startFrame .cont

/-! ### Frames as input -/

/-- The bytes of a frame are presented next, one a step, in the order sent (R70, R85). -/
def State.present (s : State) (bs : List Byte) : State :=
  { s with inputs := bs.map Stimulus.byte ++ s.inputs }

/-! ### What the decoder rejects -/

/-- A code that is no instruction: a reserved state code is the stuck state of U13, anything else is refused. -/
def reject : DecodeError → Outcome
  | .reservedStateCode => .fault .noStepClass
  | e => .refused (.notDecodable e)

/-! ### The output ports (R12) -/

/-- `st_out` (R30). -/
def State.stOut (s : State) : BitVec 3 := s.parser.st.code

/-- The event of the most recent step, where that step was a byte-step. -/
def State.event (s : State) : Option FrameEvent := s.out.event

/-- `ev`, the event code (R82). -/
def State.ev (s : State) : Option (BitVec 3) := s.event.map FrameEvent.code

/-- The RawFrame of the most recent step, where its event is FrameComplete. -/
def State.evFrame (s : State) : Option RawFrame :=
  match s.out.event with
  | some (.frameComplete raw) => some raw
  | _ => none

/-- `ev_frame_type`. -/
def State.evFrameType (s : State) : Option Byte := s.evFrame.map RawFrame.frameType

/-- `ev_payload_len`, 16 bits. -/
def State.evPayloadLen (s : State) : Option Half := s.evFrame.map fun r => BitVec.ofNat 16 r.payload.length

/-- `ev_payload[i]`. -/
def State.evPayload (s : State) (i : Nat) : Option Byte := s.evFrame.bind fun r => r.payload[i]?

/-- `enc_err`. -/
def State.encErr (s : State) : Option Bool := s.out.encoded.map (· == .invalidCommand)

/-- `enc_frame[i]`, meaningful only when `enc_err` = 0. -/
def State.encFrame (s : State) (i : Nat) : Option Byte :=
  match s.out.encoded with
  | some (.frame bs) => bs[i]?
  | _ => none

/-- The frame type a typed frame retains (R151, conflict C4). -/
def Frame.frameType : Frame → Byte
  | .opaqueFrame t _ => t
  | .ioSample _ => Config.ioSampleType
  | .atCommandResponse _ => Config.atResponseType

end Sys2Proof.Machine
end

