-- ==== Sys2Proof/Machine/Checksum.lean ====
section
/-! DEFINITION. The checksum steps (spec/40_frame_state_machine.md R112, R113). -/

namespace Sys2Proof.Machine

/-- `CKSUM_OK` (R112): `emit FrameComplete(ft, buf[0..blen-1]); clear(); st <- Idle`, the frame taken before the
clearing. -/
def execCksumOk (_b : Byte) (s : State) : Outcome :=
  .next (s.report (s.parser.clear.goto .idle) (.frameComplete s.parser.rawFrame))

/-- `CKSUM_BAD` (R113): `clear(); st <- Idle; raise ChecksumFailed`. -/
def execCksumBad (_b : Byte) (s : State) : Outcome := .next (s.raise .checksumFailed)

end Sys2Proof.Machine
end

