-- ==== Sys2Proof/Machine/Command.lean ====
section
/-! DEFINITION. The two commands that act on the parser without a byte (spec/40_frame_state_machine.md R119, R120). -/

namespace Sys2Proof.Machine

/-- `RESET` (R120): `clear(); st <- Idle`; no event. -/
def execReset (s : State) : Outcome := .next (s.quiet (s.parser.clear.goto .idle))

/-- `NODATA` (R119): nothing changes; no event, not even Continue. -/
def execNoData (s : State) : Outcome := .next (s.quiet s.parser)

end Sys2Proof.Machine
end

