-- ==== Sys2Proof/Machine/Decoder.lean ====
section
/-! DEFINITION. The FrameDecoder (spec/42_frame_decoder.md R150 to R163): a pure reference function over a raw frame,
outside the block and without a path back into it (R163; notes/assumptions/5.md). -/

namespace Sys2Proof.Machine

open Config

/-- The map of result codes (R159). -/
def atResultOf (code : Byte) : AtResult :=
  if code = 0x00 then .ok
  else if code = 0x01 then .error
  else if code = 0x02 then .invalidCommand
  else if code = 0x03 then .invalidParameter
  else if code = 0x04 then .txFailure
  else .unknown code

/-- The AtCommandResponse decoder (R157, R158): at least four bytes, the rest retained verbatim. -/
def decodeAtResponse : List Byte → DecodeResult
  | frameId :: c0 :: c1 :: code :: extra =>
    .frame (.atCommandResponse ⟨frameId, c0, c1, atResultOf code, extra⟩)
  | _ => .malformedFrame

/-- `digital_samples` (R153 to R155): zero, consuming nothing, where the mask is zero; else two more bytes, which
must be there. -/
def digitalSamplesOf (digitalMask : Half) : List Byte → Option Half
  | d0 :: d1 :: _ => some (if digitalMask = 0 then 0 else be16 d0 d1)
  | _ => if digitalMask = 0 then some 0 else none

/-- The IoSample decoder (R153 to R156): fifteen bytes of fields, then the digital samples; bytes beyond those
consumed are ignored. -/
def decodeIoSample : List Byte → DecodeResult
  | a0 :: a1 :: a2 :: a3 :: a4 :: a5 :: a6 :: a7 :: n0 :: n1 :: options :: count :: m0 :: m1 :: analog :: rest =>
    match digitalSamplesOf (be16 m0 m1) rest with
    | some samples =>
      .frame (.ioSample
        { senderAddress := be64 a0 a1 a2 a3 a4 a5 a6 a7
          sourceNetworkAddress := be16 n0 n1
          receiveOptions := options
          sampleCount := count
          digitalMask := be16 m0 m1
          analogMask := analog
          digitalSamples := samples })
    | none => .malformedFrame
  | _ => .malformedFrame

/-- `decode : RawFrame → Frame | MalformedFrame`, dispatched on the frame type alone (R150, R152, R161). R150 bounds the
payload at 65534 bytes; a longer one is decoded by the same rules (DESIGN CHOICE, notes/assumptions/20.md). -/
def decodeRaw (raw : RawFrame) : DecodeResult :=
  if raw.frameType = atResponseType then decodeAtResponse raw.payload
  else if raw.frameType = ioSampleType then decodeIoSample raw.payload
  else .frame (.opaqueFrame raw.frameType raw.payload)

/-- `AT_RESPONSE` (R157). -/
def execAtResponse (payload : List Byte) (s : State) : Outcome :=
  .next { s with out := { s.out with decoded := some (decodeAtResponse payload) } }

/-- `IO_SAMPLE` (R153). -/
def execIoSample (payload : List Byte) (s : State) : Outcome :=
  .next { s with out := { s.out with decoded := some (decodeIoSample payload) } }

/-- `OPAQUE` (R152): the raw payload unmodified. -/
def execOpaqueFrame (t : Byte) (payload : List Byte) (s : State) : Outcome :=
  .next { s with out := { s.out with decoded := some (.frame (.opaqueFrame t payload)) } }

end Sys2Proof.Machine
end

