-- ==== Sys2Proof/Machine/Encoder.lean ====
section
/-! DEFINITION. The FrameEncoder for AT commands (spec/43_frame_encoder.md R170 to R177): a pure function of its two
input bytes. -/

namespace Sys2Proof.Machine

open Config

/-- `build_at_command_frame` on the two ports (R171 to R173): an error where a byte is not ASCII, bit 7 set
(decision D15); otherwise the eight bytes with the checksum of the four frame-data bytes. -/
def buildAtPorts (c0 c1 : Byte) : EncodeResult :=
  if c0.getLsbD 7 || c1.getLsbD 7 then .invalidCommand
  else .frame (atFrameBytes c0 c1 (compute (sumBytes [atApiId, atFrameId, c0, c1])))

/-- `build_at_command_frame(two_char_command)` over a byte list (R170): any length other than two is also
InvalidCommand (R173). -/
def buildAtCommandFrame : List Byte → EncodeResult
  | [c0, c1] => buildAtPorts c0 c1
  | _ => .invalidCommand

/-- `BUILD_AT` (R170): the result appears on the encoder's ports; the parser is not touched. -/
def execBuildAt (c0 c1 : Byte) (s : State) : Outcome :=
  .next { s with out := { s.out with encoded := some (buildAtPorts c0 c1) } }

/-- The output ports with which the step of a stimulus begins: nothing of an earlier step (R35, R219), and the result of
the FrameEncoder where its ports are driven beside the parser's. The encoder is combinational and shares no state with
the parser (R10, R83, R174), so its result does not wait for the parser's instruction. -/
def Stimulus.outputs : Stimulus → Output
  | .parser _ _ _ enc => { Output.quiet with encoded := enc.map fun c => buildAtPorts c.1 c.2 }
  | .encoder _ _ => .quiet
  | .frame _ _ => .quiet
  | .atFrame _ _ _ => .quiet
  | .rawFrame _ => .quiet

end Sys2Proof.Machine
end

