-- ==== Sys2Proof/Machine/FrameData.lean ====
section
/-! DEFINITION. The frame-data steps (spec/40_frame_state_machine.md R109 to R111). -/

namespace Sys2Proof.Machine

/-- `TYPE` (R109): the byte is stored as the frame type, not in the buffer, and consumed. -/
def execTypeByte (b : Byte) (s : State) : Outcome :=
  .next (s.report { s.parser.consume b with ft := b, ftv := true } .cont)

/-- `TYPE_ZERO` (R110): `clear(); st <- REJ; raise ZeroFrameType`. -/
def execTypeZero (s : State) : Outcome := .next (s.raise .zeroFrameType)

/-- `DATA` (R111): the byte is appended to the buffer and consumed. -/
def execData (b : Byte) (s : State) : Outcome :=
  .next (s.report ((s.parser.append b).consume b) .cont)

end Sys2Proof.Machine
end

