-- ==== Sys2Proof/Machine/Frames.lean ====
section
/-! DEFINITION. The two frame formats as instructions: their meaning is the expansion of the macros `FRAME` and `AT`
(spec/30_encoding.md R85) into the bytes that the next steps present, one a step (R70, R79; notes/assumptions/4.md). -/

namespace Sys2Proof.Machine

open Config

/-- `API_FRAME` (R70, R85): the wire bytes of the frame are presented next. The notation is defined for payloads of
at most 65534 bytes (R85). -/
def execApiFrame (t : Byte) (payload : List Byte) (s : State) : Outcome :=
  if payload.length ≤ payloadCap then .next (s.present (frameBytes t payload))
  else .refused .frameUndefined

/-- `AT_COMMAND` (R79): the eight bytes of the frame are presented next. -/
def execAtCommand (c0 c1 k : Byte) (s : State) : Outcome := .next (s.present (atFrameBytes c0 c1 k))

end Sys2Proof.Machine
end

