-- ==== Sys2Proof/Machine/Length.lean ====
section
/-! DEFINITION. The length steps (spec/40_frame_state_machine.md R106 to R108). -/

namespace Sys2Proof.Machine

/-- `LEN_HI` (R106): `rem <- zext_16(b) << 8; st <- RLL; event <- Continue`. -/
def execLenHi (b : Byte) (s : State) : Outcome :=
  .next (s.report { s.parser with rem := lengthFromHigh b, st := .readLengthLow } .cont)

/-- `LEN_LO` (R107): `rem <- rem | zext_16(b); st <- RP; event <- Continue`. -/
def execLenLo (b : Byte) (s : State) : Outcome :=
  .next (s.report { s.parser with rem := lengthWithLow s.parser.rem b, st := .readPayload } .cont)

/-- `LEN_LO_ZERO` (R108): `clear(); st <- REJ; raise ZeroLengthFrame`. -/
def execLenLoZero (s : State) : Outcome := .next (s.raise .zeroLengthFrame)

end Sys2Proof.Machine
end

