-- ==== Sys2Proof/Machine/StartMarker.lean ====
section
/-! DEFINITION. The start-marker steps and the two no-operations (spec/40_frame_state_machine.md R101 to R105). Like
every meaning, each is its rule's pseudocode; the condition "selected when" is the decoder's (notes/assumptions/6.md). -/

namespace Sys2Proof.Machine

/-- `START` (R101): `clear(); st <- RLH; event <- Continue`. -/
def execStart (s : State) : Outcome := .next s.resume

/-- `RESTART` (R104): `clear(); st <- RLH; event <- Continue`; no second event for a frame already reported. -/
def execRestart (s : State) : Outcome := .next s.resume

/-- `PREEMPT` (R103): `clear(); st <- RLH; raise FramePreempted`. -/
def execPreempt (s : State) : Outcome := .next (s.raise .framePreempted)

/-- `GARBAGE` (R102): `event <- Continue`; no field changes. -/
def execGarbage (_b : Byte) (s : State) : Outcome := .next (s.report s.parser .cont)

/-- `ABSORB` (R105): `event <- Continue`; no field changes. -/
def execAbsorb (_b : Byte) (s : State) : Outcome := .next (s.report s.parser .cont)

end Sys2Proof.Machine
end

