-- ==== Sys2Proof/Machine/Dispatch.lean ====
section
/-! DEFINITION. Which meaning an instruction has: one arm per row of spec/opcode_table.json. -/

namespace Sys2Proof.Machine

def exec (i : Instr) (s : State) : Host.Outcome State Fault Refusal :=
  match i with
  | .start => Sys2Proof.Machine.execStart s
  | .restart => Sys2Proof.Machine.execRestart s
  | .preempt => Sys2Proof.Machine.execPreempt s
  | .garbage b => Sys2Proof.Machine.execGarbage b s
  | .absorb b => Sys2Proof.Machine.execAbsorb b s
  | .lenHi b => Sys2Proof.Machine.execLenHi b s
  | .lenLoZero => Sys2Proof.Machine.execLenLoZero s
  | .lenLo b => Sys2Proof.Machine.execLenLo b s
  | .typeZero => Sys2Proof.Machine.execTypeZero s
  | .typeByte b => Sys2Proof.Machine.execTypeByte b s
  | .data b => Sys2Proof.Machine.execData b s
  | .cksumOk b => Sys2Proof.Machine.execCksumOk b s
  | .cksumBad b => Sys2Proof.Machine.execCksumBad b s
  | .reset => Sys2Proof.Machine.execReset s
  | .noData => Sys2Proof.Machine.execNoData s
  | .buildAt c0 c1 => Sys2Proof.Machine.execBuildAt c0 c1 s
  | .apiFrame t payload => Sys2Proof.Machine.execApiFrame t payload s
  | .atCommand c0 c1 k => Sys2Proof.Machine.execAtCommand c0 c1 k s
  | .atResponse payload => Sys2Proof.Machine.execAtResponse payload s
  | .ioSample payload => Sys2Proof.Machine.execIoSample payload s
  | .opaqueFrame t payload => Sys2Proof.Machine.execOpaqueFrame t payload s

end Sys2Proof.Machine
end

