-- ==== Sys2Proof/Machine/Step.lean ====
section
/-! DEFINITION. One step of the machine: the oldest stimulus is decoded in the state before the step
(spec/30_encoding.md R74, R83), taken off, and the instruction executed on the output ports as the stimulus leaves them:
cleared of the step before, with the FrameEncoder's result where its ports are driven too (R10,
notes/assumptions/16.md). With no stimulus the environment presents no byte: NODATA (spec/00_scope.md R11 b,
notes/assumptions/2.md). -/

namespace Sys2Proof.Machine

def step (s : State) : Host.Outcome State Fault Refusal :=
  match s.inputs with
  | [] => exec .noData { s with out := .quiet }
  | x :: rest =>
    match decode (x.code s.parser) with
    | .ok i => exec i { s with inputs := rest, out := x.outputs }
    | .error e => reject e

/-- `s` with the table word `w` in place to be fetched next: its stimulus first in the inputs and, for a byte-step,
the parser in the decode context that the word names (notes/assumptions/12.md). -/
def State.withFetchWord (s : State) (nbits w : Nat) : State :=
  match codeOfTableWord nbits w with
  | some c => s.place c
  | none => s

end Sys2Proof.Machine
end

