-- ==== Sys2Proof/Safety.lean ====
section
/-! DEFINITION. The terms in which statements speak about runs: the invariants of spec/10_state.md R33, the contract
`feed : ParserState x Byte -> ParserState x FrameEvent` of spec/40_frame_state_machine.md R100 read off the step, its
fold over a byte sequence, and the two tables of the spec as they are written in prose, the selection column of
spec/30_encoding.md R74 and the transition table R114. -/

namespace Sys2Proof.Machine

open Config

/-! ### Invariants -/

/-- ParserState with the transient fields cleared (R26) and the given tag. -/
def ParserState.cleared (t : Tag) : ParserState :=
  { st := t, rem := 0x0000, cks := 0x00, ftv := false, ft := 0x00, buf := [] }

/-- ParserState holding a length and nothing else of the frame: the row RLL and the row "RP, ftv = 0" of R33. -/
def ParserState.lengthOnly (t : Tag) (rem : Half) : ParserState :=
  { st := t, rem := rem, cks := 0x00, ftv := false, ft := 0x00, buf := [] }

/-- The frame-data bytes received so far: the frame type, once it is valid, and the payload (R143). -/
def ParserState.frameData (p : ParserState) : List Byte := if p.ftv then p.ft :: p.buf.bytes else []

/-- In RP and RC: `L`, the length of the frame in progress, is what is still to come and what has come (R33). -/
def ParserState.frameLength (p : ParserState) : Nat := p.rem.toNat + p.frameData.length

/-- A partly or wholly received frame (R33, rows "RP, ftv = 1" and RC): a real frame type (R24), the payload buffer
a sequence of bytes none of which is a start marker (R75), the running sum of the frame data, and a length that the
length field can hold. -/
abbrev ParserState.Filled (p : ParserState) : Prop :=
  p.ftv = true ∧ p.ft ≠ 0x00 ∧ p.ft ≠ startMarker ∧ p.buf.wf ∧ (∀ b ∈ p.buf.bytes, b ≠ startMarker) ∧
    p.cks = sumBytes p.frameData ∧ p.frameLength ≤ 65535

/-- The invariants of R33, state by state. `L` is not state, so it stands here as `frameLength`. -/
abbrev ParserState.Inv (p : ParserState) : Prop :=
  (p.st = .idle ∨ p.st = .readLengthHigh ∨ p.st = .rejected → p = .cleared p.st) ∧
  (p.st = .readLengthLow →
    p.rem.extractLsb' 0 8 = 0x00#8 ∧ p = .lengthOnly .readLengthLow p.rem) ∧
  (p.st = .readPayload → 1 ≤ p.rem.toNat ∧ (p.Filled ∨ p = .lengthOnly .readPayload p.rem)) ∧
  (p.st = .readChecksum → p.rem = 0x0000 ∧ p.Filled)

/-! ### The contract of R100 -/

/-- `feed` (R100): the state after, and the event of, the step that consumes the one byte `b`. -/
def feed (p : ParserState) (b : Byte) : ParserState × FrameEvent :=
  match step { parser := p, inputs := [.byte b], out := .quiet } with
  | .next t => (t.parser, t.event.getD .cont)
  | _ => (p, .cont)

/-- The fold of `feed` over a byte sequence (R116, R223): the final state and the events in order. -/
def feedAll (p : ParserState) : List Byte → ParserState × List FrameEvent
  | [] => (p, [])
  | b :: bs => ((feedAll (feed p b).1 bs).1, (feed p b).2 :: (feedAll (feed p b).1 bs).2)

/-- The events that `k` steps of the machine report, in order. -/
def State.events : Nat → State → List FrameEvent
  | 0, _ => []
  | k + 1, s =>
    match step s with
    | .next t => t.event.toList ++ State.events k t
    | _ => []

/-- The environment presents a byte, or none ("no data yet"), in one step (R11 a, b). -/
def Stimulus.offer : Option Byte → Stimulus
  | some b => .byte b
  | none => .parser false false 0x00 none

/-! ### The tables of the spec -/

/-- In the parser state `p` the byte `b` is decoded as `i` (R74): the rules' "selected when". -/
def ParserState.Runs (p : ParserState) (b : Byte) (i : Instr) : Prop :=
  decode (.stepWord (p.decodeWord b)) = .ok i

/-- The third column of R74, "selected when", with the priority of R75 written out. -/
def SelectedWhen (i : Instr) (p : ParserState) (b : Byte) : Prop :=
  match i with
  | .start => p.st = .idle ∧ b = startMarker
  | .restart => p.st = .rejected ∧ b = startMarker
  | .preempt => p.st ≠ .idle ∧ p.st ≠ .rejected ∧ b = startMarker
  | .garbage x => p.st = .idle ∧ b ≠ startMarker ∧ x = b
  | .absorb x => p.st = .rejected ∧ b ≠ startMarker ∧ x = b
  | .lenHi x => p.st = .readLengthHigh ∧ b ≠ startMarker ∧ x = b
  | .lenLoZero => p.st = .readLengthLow ∧ p.rem.extractLsb' 8 8 = 0x00#8 ∧ b = 0x00
  | .lenLo x => p.st = .readLengthLow ∧ b ≠ startMarker ∧ ¬(p.rem.extractLsb' 8 8 = 0x00#8 ∧ b = 0x00) ∧ x = b
  | .typeZero => p.st = .readPayload ∧ p.ftv = false ∧ b = 0x00
  | .typeByte x => p.st = .readPayload ∧ p.ftv = false ∧ b ≠ 0x00 ∧ b ≠ startMarker ∧ x = b
  | .data x => p.st = .readPayload ∧ p.ftv = true ∧ b ≠ startMarker ∧ x = b
  | .cksumOk x => p.st = .readChecksum ∧ b ≠ startMarker ∧ b = 0xFF - p.cks ∧ x = b
  | .cksumBad x => p.st = .readChecksum ∧ b ≠ startMarker ∧ b ≠ 0xFF - p.cks ∧ x = b
  | .reset => False
  | .noData => False
  | .buildAt _ _ => False
  | .apiFrame _ _ => False
  | .atCommand _ _ _ => False
  | .atResponse _ => False
  | .ioSample _ => False
  | .opaqueFrame _ _ => False

/-- The transition table R114: the next tag and the event, from the state before and the input byte. -/
def transitionTable (p : ParserState) (b : Byte) : Tag × FrameEvent :=
  let afterData : Tag := if p.rem = 1 then .readChecksum else .readPayload
  match p.st with
  | .idle => if b = startMarker then (.readLengthHigh, .cont) else (.idle, .cont)
  | .readLengthHigh =>
    if b = startMarker then (.readLengthHigh, .framePreempted) else (.readLengthLow, .cont)
  | .readLengthLow =>
    if b = startMarker then (.readLengthHigh, .framePreempted)
    else if p.rem.extractLsb' 8 8 = 0x00#8 ∧ b = 0x00 then (.rejected, .zeroLengthFrame)
    else (.readPayload, .cont)
  | .readPayload =>
    if b = startMarker then (.readLengthHigh, .framePreempted)
    else if p.ftv = false ∧ b = 0x00 then (.rejected, .zeroFrameType)
    else (afterData, .cont)
  | .readChecksum =>
    if b = startMarker then (.readLengthHigh, .framePreempted)
    else if b = 0xFF - p.cks then (.idle, .frameComplete p.rawFrame)
    else (.idle, .checksumFailed)
  | .rejected => if b = startMarker then (.readLengthHigh, .cont) else (.rejected, .cont)

/-- The frames that can be received (R77, R214): a frame type that is neither 0x00 nor 0x7E, a payload within the
length field, and no 0x7E in length, payload or checksum. -/
abbrev Receivable (t : Byte) (payload : List Byte) : Prop :=
  t ≠ 0x00 ∧ t ≠ startMarker ∧ payload.length ≤ payloadCap ∧ (∀ b ∈ payload, b ≠ startMarker) ∧
    (∀ b ∈ lengthBytes payload.length, b ≠ startMarker) ∧ compute (sumBytes (t :: payload)) ≠ startMarker

end Sys2Proof.Machine
end

