-- ==== Sys2Proof/Certificates/Slice0/Obligations.lean ====
section
/-! DEFINITION. The statements for the provers. Each docstring names the rule of spec/ it formalises; `L<n>` is the log
entry notes/assumptions/<n>.md where a clause is the model's own choice. A statement about `exec` gives the whole next
state, so it is at once the instruction's result, its frame and its completion. -/

open Sys2Proof Sys2Proof.Machine

/-! ### Reset, stepping, decoding -/

/-- R34: every piece of state after reset. -/
def Obligations.ResetStateValues : Prop :=
  State.reset.parser.st = .idle ∧ State.reset.parser.rem = 0x0000 ∧ State.reset.parser.cks = 0x00 ∧
  State.reset.parser.ftv = false ∧ State.reset.parser.ft = 0x00 ∧ State.reset.parser.blen = 0 ∧
  (∀ a, State.reset.parser.buf.read a = none) ∧ State.reset.stOut = 0 ∧
  ∀ s : State, ∃ t, exec .reset s = .next t ∧ t.parser = State.reset.parser ∧ t.stOut = 0

/-- The invariants of R33 hold at reset. -/
def Obligations.ResetMeetsInvariants : Prop := State.reset.parser.Inv

/-- R33: the invariants are kept by every step, whatever the stimulus. -/
def Obligations.StepKeepsInvariants : Prop :=
  ∀ s t : State, s.parser.Inv → step s = .next t → t.parser.Inv

/-- A step runs the instruction that its stimulus decodes to in the state before the step (R74, R83). The stimulus is
taken off the inputs, and the output ports begin without anything of an earlier step (R219), with the result of the
FrameEncoder where its ports are driven beside the parser's (R10). With nothing presented the step is NODATA (L2). -/
def Obligations.StepRunsDecodedInstruction : Prop :=
  (∀ (s : State) (x : Stimulus) (rest : List Stimulus) (i : Instr),
    s.inputs = x :: rest → decode (x.code s.parser) = .ok i →
    step s = exec i { s with inputs := rest, out := x.outputs }) ∧
  (∀ s : State, s.inputs = [] → step s = exec .noData { s with out := .quiet }) ∧
  (∀ rst inValid b enc, (Stimulus.parser rst inValid b enc).outputs =
    { event := none, encoded := enc.map fun c => buildAtPorts c.1 c.2, decoded := none }) ∧
  (∀ x : Stimulus, (∀ rst inValid b enc, x ≠ .parser rst inValid b enc) → x.outputs = .quiet)

/-- Words of the opcode table, written out from their rows, decode to their instructions: decode words (R74), wire
frames (R70, R79), the frame data of both payload formats (R153, R157). Two clauses are the model's own choice: that the
encoder's frame for "ID" decodes to AT_COMMAND, although it also meets the row API_FRAME (L9, DESIGN CHOICE), and that
a reserved state code is rejected although PREEMPT's mask does not test it (L8, DEDUCED). -/
def Obligations.TableWordsDecode : Prop :=
  decode (.stepWord 0b00000001111110#14) = .ok .start ∧
  decode (.stepWord 0b10100001111110#14) = .ok .restart ∧
  decode (.stepWord 0b01110001111110#14) = .ok .preempt ∧
  decode (.stepWord 0b00000001010101#14) = .ok (.garbage 0x55) ∧
  decode (.stepWord 0b01001000000000#14) = .ok .lenLoZero ∧
  decode (.stepWord 0b01000000000000#14) = .ok (.lenLo 0x00) ∧
  decode (.stepWord 0b01100000001000#14) = .ok (.typeByte 0x08) ∧
  decode (.stepWord 0b01110001001001#14) = .ok (.data 0x49) ∧
  decode (.stepWord 0b10010101101001#14) = .ok (.cksumOk 0x69) ∧
  decode (.stepWord 0b10010001101001#14) = .ok (.cksumBad 0x69) ∧
  decode (.stepWord 0b11000001111110#14) = .error .reservedStateCode ∧
  decode (.wire [0x7E, 0x00, 0x04, 0x08, 0x01, 0x49, 0x44, 0x69]) = .ok (.atCommand 0x49 0x44 0x69) ∧
  decode (.wire [0x7E, 0x00, 0x02, 0x8A, 0x06, 0x6F]) = .ok (.apiFrame 0x8A [0x06]) ∧
  decode (.frameData [0x88, 0x01, 0x49, 0x44, 0x00]) = .ok (.atResponse [0x01, 0x49, 0x44, 0x00]) ∧
  decode (.frameData [0x92, 0xFF]) = .ok (.ioSample [0xFF])

/-- R74, R75: the layout of the decode word, and the class it selects: the third column of the table, in every state. -/
def Obligations.DecodeWordSelectsClass : Prop :=
  ∀ (p : ParserState) (b : Byte),
    (stCodeOf (p.decodeWord b) = p.st.code ∧ ftvOf (p.decodeWord b) = p.ftv ∧
      (lzOf (p.decodeWord b) = true ↔ p.rem.extractLsb' 8 8 = 0x00#8) ∧
      (ckokOf (p.decodeWord b) = true ↔ b = 0xFF - p.cks) ∧ byteOf (p.decodeWord b) = b) ∧
    (∀ i : Instr, p.Runs b i ↔ SelectedWhen i p b) ∧ (∃ i : Instr, p.Runs b i)

/-- Decoding undoes encoding: for every well-formed instruction, whatever its operands. -/
def Obligations.DecodeEncodeRoundTrip : Prop := ∀ i : Instr, WellFormed i → decode (encode i) = .ok i

/-- What is decoded is well-formed, and where the encoding has no free bits (wire frames, frame data, encoder ports)
it is the only encoding: encoding undoes decoding. -/
def Obligations.DecodeYieldsWellFormed : Prop :=
  ∀ (c : Code) (i : Instr), decode c = .ok i →
    WellFormed i ∧
    (∀ bs, c = .wire bs → encode i = .wire bs) ∧
    (∀ bs, c = .frameData bs → encode i = .frameData bs) ∧
    (∀ c0 c1, c = .encoderPorts c0 c1 → encode i = .encoderPorts c0 c1)

/-- The output ports of R12 and the codes on them: `st_out` (R21, R30) in every state; after a step that presents a byte
without reset `ev` has the code of the event (R82), and the frame ports have type, length (16 bits, exact wherever the
invariants hold) and bytes of the RawFrame when that event is FrameComplete and no value otherwise; after any other step
none of them has a value (D26, the form of "no value" being the model's choice, L3). -/
def Obligations.CodesOfTagsAndEvents : Prop :=
  (∀ s : State, s.stOut = match s.parser.st with
    | .idle => 0 | .readLengthHigh => 1 | .readLengthLow => 2 | .readPayload => 3 | .readChecksum => 4
    | .rejected => 5) ∧
  (∀ raw, FrameEvent.code (.frameComplete raw) = 1) ∧ FrameEvent.code .cont = 0 ∧
  FrameEvent.code .checksumFailed = 2 ∧ FrameEvent.code .zeroLengthFrame = 3 ∧
  FrameEvent.code .zeroFrameType = 4 ∧ FrameEvent.code .framePreempted = 5 ∧
  (∀ (s : State) (b : Byte) (enc : Option (Byte × Byte)) (rest : List Stimulus),
    s.inputs = .parser false true b enc :: rest →
    ∃ t e, step s = .next t ∧ t.event = some e ∧ t.ev = some e.code ∧
      (∀ raw, e = .frameComplete raw →
        t.evFrameType = some raw.frameType ∧ t.evPayloadLen = some (BitVec.ofNat 16 raw.payload.length) ∧
        (∀ i, t.evPayload i = raw.payload[i]?) ∧
        (s.parser.Inv → (BitVec.ofNat 16 raw.payload.length).toNat = raw.payload.length)) ∧
      ((∀ raw, e ≠ .frameComplete raw) →
        t.evFrameType = none ∧ t.evPayloadLen = none ∧ ∀ i, t.evPayload i = none)) ∧
  (∀ s t : State, step s = .next t → (∀ b enc rest, s.inputs ≠ .parser false true b enc :: rest) →
    t.ev = none ∧ t.evFrameType = none ∧ t.evPayloadLen = none ∧ ∀ i, t.evPayload i = none)

/-! ### The start-marker steps -/

/-- R101: START. In Idle the fields are already clear, so only the tag changes. -/
def Obligations.StartBeginsFrame : Prop :=
  ∀ s : State,
    (s.parser.st = .idle → s.parser.Runs 0x7E .start) ∧
    exec .start s = .next { s with
      parser := { st := .readLengthHigh, rem := 0x0000, cks := 0x00, ftv := false, ft := 0x00, buf := [] }
      out := { s.out with event := some .cont } } ∧
    (s.parser.Inv → s.parser.st = .idle →
      exec .start s = .next { s with
        parser := { s.parser with st := .readLengthHigh }, out := { s.out with event := some .cont } })

/-- R102: GARBAGE changes nothing, and the environment recognises it by GarbageByte. -/
def Obligations.GarbageIsIgnored : Prop :=
  ∀ (s : State) (b : Byte),
    (s.parser.st = .idle → b ≠ 0x7E → s.parser.Runs b (.garbage b)) ∧
    exec (.garbage b) s = .next { s with out := { s.out with event := some .cont } } ∧
    (garbageByte s.parser.st b = true ↔ s.parser.st = .idle ∧ b ≠ 0x7E)

/-- R103: PREEMPT, in each of the four states of a frame in progress and in no other. -/
def Obligations.PreemptDiscardsFrame : Prop :=
  ∀ s : State,
    (s.parser.Runs 0x7E .preempt ↔
      s.parser.st = .readLengthHigh ∨ s.parser.st = .readLengthLow ∨ s.parser.st = .readPayload ∨
        s.parser.st = .readChecksum) ∧
    exec .preempt s = .next { s with
      parser := { st := .readLengthHigh, rem := 0x0000, cks := 0x00, ftv := false, ft := 0x00, buf := [] }
      out := { s.out with event := some .framePreempted } }

/-- R104: RESTART, without a second event for the rejected frame; in effect START. -/
def Obligations.RestartLeavesRejected : Prop :=
  ∀ s : State,
    (s.parser.st = .rejected → s.parser.Runs 0x7E .restart ∧ ¬ s.parser.Runs 0x7E .preempt) ∧
    exec .restart s = .next { s with
      parser := { st := .readLengthHigh, rem := 0x0000, cks := 0x00, ftv := false, ft := 0x00, buf := [] }
      out := { s.out with event := some .cont } } ∧
    exec .restart s = exec .start s

/-- R105: ABSORB changes nothing, and an absorbed byte is no garbage byte. -/
def Obligations.AbsorbIsSilent : Prop :=
  ∀ (s : State) (b : Byte),
    (s.parser.st = .rejected → b ≠ 0x7E → s.parser.Runs b (.absorb b)) ∧
    exec (.absorb b) s = .next { s with out := { s.out with event := some .cont } } ∧
    garbageByte .rejected b = false

/-! ### The length steps -/

/-- R106: LEN_HI. -/
def Obligations.LenHiSetsHighLength : Prop :=
  ∀ (s : State) (b : Byte),
    (s.parser.st = .readLengthHigh → b ≠ 0x7E → s.parser.Runs b (.lenHi b)) ∧
    exec (.lenHi b) s = .next { s with
      parser := { s.parser with rem := b.setWidth 16 <<< 8, st := .readLengthLow }
      out := { s.out with event := some .cont } } ∧
    (b.setWidth 16 <<< 8 : BitVec 16).toNat = 256 * b.toNat

/-- R107: LEN_LO, for every non-zero length. With the low byte of `rem` zero, as in every reachable state of RLL, the
OR is an addition, and the condition is that the assembled length is not zero. -/
def Obligations.LenLoCompletesLength : Prop :=
  ∀ (s : State) (b : Byte),
    (s.parser.st = .readLengthLow → s.parser.Inv → b ≠ 0x7E → s.parser.rem ||| b.setWidth 16 ≠ 0 →
      s.parser.Runs b (.lenLo b)) ∧
    exec (.lenLo b) s = .next { s with
      parser := { s.parser with rem := s.parser.rem ||| b.setWidth 16, st := .readPayload }
      out := { s.out with event := some .cont } } ∧
    (s.parser.rem.extractLsb' 0 8 = 0x00#8 →
      (s.parser.rem ||| b.setWidth 16).toNat = s.parser.rem.toNat + b.toNat)

/-- R108: LEN_LO_ZERO. -/
def Obligations.ZeroLengthRejects : Prop :=
  ∀ s : State,
    (s.parser.st = .readLengthLow → s.parser.rem.extractLsb' 8 8 = 0x00#8 → s.parser.Runs 0x00 .lenLoZero) ∧
    exec .lenLoZero s = .next { s with
      parser := { st := .rejected, rem := 0x0000, cks := 0x00, ftv := false, ft := 0x00, buf := [] }
      out := { s.out with event := some .zeroLengthFrame } }

/-! ### The frame-data steps -/

/-- R109: TYPE. In every reachable state before it, the sum is zero, so it becomes the byte. -/
def Obligations.TypeStoresFrameType : Prop :=
  ∀ (s : State) (b : Byte),
    (s.parser.st = .readPayload → s.parser.ftv = false → b ≠ 0x00 → b ≠ 0x7E → s.parser.Runs b (.typeByte b)) ∧
    exec (.typeByte b) s = .next { s with
      parser :=
        { s.parser with
          ft := b, ftv := true, cks := s.parser.cks + b, rem := s.parser.rem - 1
          st := if s.parser.rem - 1 = 0 then .readChecksum else .readPayload }
      out := { s.out with event := some .cont } } ∧
    (s.parser.Inv → s.parser.st = .readPayload → s.parser.ftv = false → s.parser.cks + b = b ∧ 1 ≤ s.parser.rem.toNat)

/-- R110: TYPE_ZERO. -/
def Obligations.ZeroTypeRejects : Prop :=
  ∀ s : State,
    (s.parser.st = .readPayload → s.parser.ftv = false → s.parser.Runs 0x00 .typeZero) ∧
    exec .typeZero s = .next { s with
      parser := { st := .rejected, rem := 0x0000, cks := 0x00, ftv := false, ft := 0x00, buf := [] }
      out := { s.out with event := some .zeroFrameType } }

/-- R111: DATA. In every reachable state before it, `rem` does not wrap and the buffer has room. -/
def Obligations.DataAppendsPayloadByte : Prop :=
  ∀ (s : State) (b : Byte),
    (s.parser.st = .readPayload → s.parser.ftv = true → b ≠ 0x7E → s.parser.Runs b (.data b)) ∧
    exec (.data b) s = .next { s with
      parser :=
        { s.parser with
          buf := s.parser.buf.write s.parser.blen b, cks := s.parser.cks + b, rem := s.parser.rem - 1
          st := if s.parser.rem - 1 = 0 then .readChecksum else .readPayload }
      out := { s.out with event := some .cont } } ∧
    (s.parser.Inv → s.parser.st = .readPayload → s.parser.ftv = true →
      1 ≤ s.parser.rem.toNat ∧ s.parser.blen ≤ 65533)

/-- R52, the frame of the one storing form: DATA stores its byte at the address `blen` of the state before it, and
every byte at another address reads as before; the canonical form is kept and the length grows by one; frame type and
flag stay. -/
def Obligations.DataStoresAtBlenOnly : Prop :=
  ∀ (s t : State) (b : Byte) (a : Nat), exec (.data b) s = .next t → a = s.parser.blen →
    t.parser.buf.read a = some b ∧ (∀ a', a' ≠ a → t.parser.buf.read a' = s.parser.buf.read a') ∧
    (s.parser.buf.wf → t.parser.buf.wf ∧ t.parser.blen = s.parser.blen + 1 ∧
      t.parser.buf.bytes = s.parser.buf.bytes ++ [b]) ∧
    t.parser.ft = s.parser.ft ∧ t.parser.ftv = s.parser.ftv ∧ t.inputs = s.inputs

/-- R25, R26, R50: the memory frame of every other instruction. The clearing ones empty the buffer; the rest leave
every byte of it. -/
def Obligations.OtherFormsStoreNothing : Prop :=
  ∀ (i : Instr) (s t : State), exec i s = .next t →
    match i with
    | .data _ => True
    | .start | .restart | .preempt | .lenLoZero | .typeZero | .cksumOk _ | .cksumBad _ | .reset =>
      t.parser.blen = 0 ∧ ∀ a, t.parser.buf.read a = none
    | .garbage _ | .absorb _ | .lenHi _ | .lenLo _ | .typeByte _ | .noData | .buildAt _ _ | .apiFrame _ _
    | .atCommand _ _ _ | .atResponse _ | .ioSample _ | .opaqueFrame _ _ =>
      t.parser.blen = s.parser.blen ∧ ∀ a, t.parser.buf.read a = s.parser.buf.read a

/-! ### The checksum steps -/

/-- R112: CKSUM_OK. -/
def Obligations.ValidChecksumCompletesFrame : Prop :=
  ∀ (s : State) (b : Byte),
    (s.parser.st = .readChecksum → b ≠ 0x7E → b = 0xFF - s.parser.cks → s.parser.Runs b (.cksumOk b)) ∧
    exec (.cksumOk b) s = .next { s with
      parser := { st := .idle, rem := 0x0000, cks := 0x00, ftv := false, ft := 0x00, buf := [] }
      out := { s.out with
        event := some (.frameComplete { frameType := s.parser.ft, payload := s.parser.buf.map Prod.snd }) } } ∧
    (s.parser.Inv → s.parser.st = .readChecksum → s.parser.ftv = true)

/-- R113: CKSUM_BAD. -/
def Obligations.WrongChecksumFailsFrame : Prop :=
  ∀ (s : State) (b : Byte),
    (s.parser.st = .readChecksum → b ≠ 0x7E → b ≠ 0xFF - s.parser.cks → s.parser.Runs b (.cksumBad b)) ∧
    exec (.cksumBad b) s = .next { s with
      parser := { st := .idle, rem := 0x0000, cks := 0x00, ftv := false, ft := 0x00, buf := [] }
      out := { s.out with event := some .checksumFailed } }

/-- R53: the payload of the assembled RawFrame is `MemRead(0, 1), …, MemRead(blen - 1, 1)` in index order. -/
def Obligations.RawFrameReadsBuffer : Prop :=
  ∀ p : ParserState, p.buf.wf →
    p.rawFrame.frameType = p.ft ∧ p.rawFrame.payload.length = p.blen ∧
    ∀ i, p.rawFrame.payload[i]? = p.buf.read i

/-! ### Commands -/

/-- R120: RESET, with priority over a presented byte, silent, idempotent. -/
def Obligations.ResetDropsFrameSilently : Prop :=
  (∀ s : State, exec .reset s = .next { s with
    parser := { st := .idle, rem := 0x0000, cks := 0x00, ftv := false, ft := 0x00, buf := [] }
    out := { s.out with event := none } }) ∧
  (∀ (s : State) (inValid : Bool) (b : Byte) (enc : Option (Byte × Byte)) (rest : List Stimulus),
    s.inputs = .parser true inValid b enc :: rest →
    ∃ t, step s = .next t ∧ t.parser = ParserState.reset ∧ t.event = none) ∧
  (∀ s t : State, exec .reset s = .next t → exec .reset t = .next t)

/-- R119: NODATA changes nothing and produces no event, not even Continue. -/
def Obligations.NoDataChangesNothing : Prop :=
  (∀ s : State, exec .noData s = .next { s with out := { s.out with event := none } }) ∧
  (∀ (s : State) (b : Byte) (enc : Option (Byte × Byte)) (rest : List Stimulus),
    s.inputs = .parser false false b enc :: rest →
    ∃ t, step s = .next t ∧ t.parser = s.parser ∧ t.event = none)

/-- R171, R173: BUILD_AT, as a result, on the ports `enc_err` and `enc_frame`, and over a byte list. Which command bytes
are accepted, those up to 0x7F, is the spec's own decision D15 and no rule of the source (L15, DEDUCED). -/
def Obligations.BuildAtMakesFrameOrError : Prop :=
  (∀ (s : State) (c0 c1 : Byte), c0.toNat ≤ 0x7F → c1.toNat ≤ 0x7F →
    exec (.buildAt c0 c1) s = .next { s with
      out := { s.out with
        encoded := some (.frame [0x7E, 0x00, 0x04, 0x08, 0x01, c0, c1, 0xFF - (0x08 + 0x01 + c0 + c1)]) } }) ∧
  (∀ (s : State) (c0 c1 : Byte), 0x80 ≤ c0.toNat ∨ 0x80 ≤ c1.toNat →
    exec (.buildAt c0 c1) s = .next { s with out := { s.out with encoded := some .invalidCommand } }) ∧
  (∀ (s t : State) (c0 c1 : Byte), exec (.buildAt c0 c1) s = .next t →
    (c0.toNat ≤ 0x7F → c1.toNat ≤ 0x7F → t.encErr = some false ∧
      List.ofFn (fun i : Fin 8 => t.encFrame i) =
        [some 0x7E, some 0x00, some 0x04, some 0x08, some 0x01, some c0, some c1,
          some (0xFF - (0x08 + 0x01 + c0 + c1))]) ∧
    (0x80 ≤ c0.toNat ∨ 0x80 ≤ c1.toNat → t.encErr = some true ∧ ∀ i, t.encFrame i = none)) ∧
  (∀ c0 c1 : Byte, buildAtCommandFrame [c0, c1] = buildAtPorts c0 c1) ∧
  (∀ cmd : List Byte, cmd.length ≠ 2 → buildAtCommandFrame cmd = .invalidCommand)

/-- R10, R170, R174: the FrameEncoder is evaluated in the same step as the parser's instruction, RESET and "no data"
included, and neither has an effect on the other: the parser, the inputs and the event are as without it, `enc_err` and
`enc_frame` are those of the two bytes whatever the parser does (the bytes accepted being decision D15, L15), and
without them the encoder's ports have no value (L3). One evaluation a step is the model's choice (L16). -/
def Obligations.EncoderRunsBesideParser : Prop :=
  ∀ (s : State) (rst inValid : Bool) (b c0 c1 : Byte) (rest : List Stimulus),
    ∃ t u, step { s with inputs := .parser rst inValid b (some (c0, c1)) :: rest } = .next t ∧
      step { s with inputs := .parser rst inValid b none :: rest } = .next u ∧
      t.parser = u.parser ∧ t.inputs = rest ∧ u.inputs = rest ∧ t.event = u.event ∧ t.out.decoded = none ∧
      t.out.encoded = some (buildAtPorts c0 c1) ∧
      (t.encErr = some true ↔ 0x80 ≤ c0.toNat ∨ 0x80 ≤ c1.toNat) ∧
      (t.encErr = some false ↔ c0.toNat ≤ 0x7F ∧ c1.toNat ≤ 0x7F) ∧
      (∀ bytes, buildAtPorts c0 c1 = .frame bytes → ∀ i, t.encFrame i = bytes[i]?) ∧
      u.encErr = none ∧ ∀ i, u.encFrame i = none

/-! ### Frames as input -/

/-- R70, R85: API_FRAME presents the bytes of `FRAME(t, p)` (the expansion as a meaning is the model's choice, L4);
beyond 65534 payload bytes the notation is not defined and the model refuses (L10). -/
def Obligations.ApiFramePresentsWireBytes : Prop :=
  (∀ (s : State) (t : Byte) (p : List Byte) (hi lo : Byte), p.length ≤ 65534 →
    256 * hi.toNat + lo.toNat = p.length + 1 →
    exec (.apiFrame t p) s = .next { s with
      inputs := ([0x7E, hi, lo, t] ++ p ++ [0xFF - p.foldl (· + ·) t]).map Stimulus.byte ++ s.inputs }) ∧
  (∀ (s : State) (t : Byte) (p : List Byte), 65534 < p.length →
    exec (.apiFrame t p) s = .refused .frameUndefined)

/-- R79: AT_COMMAND presents its eight bytes (the expansion as a meaning is the model's choice, L4). -/
def Obligations.AtCommandPresentsWireBytes : Prop :=
  ∀ (s : State) (c0 c1 k : Byte),
    exec (.atCommand c0 c1 k) s = .next { s with
      inputs := ([0x7E, 0x00, 0x04, 0x08, 0x01, c0, c1, k] : List Byte).map Stimulus.byte ++ s.inputs }

/-! ### The reference decoder -/

/-- R157 to R159: AT_RESPONSE. Payloads beyond the 65534 bytes of R150 follow the same rules by the model's choice (L20). -/
def Obligations.AtResponseDecodesFields : Prop :=
  (∀ (s : State) (frameId c0 c1 code : Byte) (extra : List Byte),
    exec (.atResponse (frameId :: c0 :: c1 :: code :: extra)) s = .next { s with
      out := { s.out with decoded := some (.frame (.atCommandResponse
        { frameId := frameId, command0 := c0, command1 := c1
          result := match code.toNat with
            | 0 => .ok | 1 => .error | 2 => .invalidCommand | 3 => .invalidParameter | 4 => .txFailure
            | _ => .unknown code
          extraBytes := extra })) } }) ∧
  (∀ (s : State) (p : List Byte), p.length < 4 →
    exec (.atResponse p) s = .next { s with out := { s.out with decoded := some .malformedFrame } })

/-- R153 to R155: IO_SAMPLE, field by field at the payload offsets of R153, with the two length checks of R154.
Payloads beyond the 65534 bytes of R150 follow the same rules by the model's choice (L20). -/
def Obligations.IoSampleDecodesFields : Prop :=
  ∀ (s : State) (p : List Byte),
    (p.length < 15 → exec (.ioSample p) s = .next { s with out := { s.out with decoded := some .malformedFrame } }) ∧
    (15 ≤ p.length → (p.getD 12 0 ++ p.getD 13 0 : BitVec 16) = 0 →
      exec (.ioSample p) s = .next { s with
        out := { s.out with decoded := some (.frame (.ioSample
          { senderAddress := p.getD 0 0 ++ p.getD 1 0 ++ p.getD 2 0 ++ p.getD 3 0 ++ p.getD 4 0 ++ p.getD 5 0 ++
              p.getD 6 0 ++ p.getD 7 0
            sourceNetworkAddress := p.getD 8 0 ++ p.getD 9 0
            receiveOptions := p.getD 10 0
            sampleCount := p.getD 11 0
            digitalMask := 0
            analogMask := p.getD 14 0
            digitalSamples := 0 })) } }) ∧
    (15 ≤ p.length → p.length < 17 → (p.getD 12 0 ++ p.getD 13 0 : BitVec 16) ≠ 0 →
      exec (.ioSample p) s = .next { s with out := { s.out with decoded := some .malformedFrame } }) ∧
    (17 ≤ p.length → (p.getD 12 0 ++ p.getD 13 0 : BitVec 16) ≠ 0 →
      exec (.ioSample p) s = .next { s with
        out := { s.out with decoded := some (.frame (.ioSample
          { senderAddress := p.getD 0 0 ++ p.getD 1 0 ++ p.getD 2 0 ++ p.getD 3 0 ++ p.getD 4 0 ++ p.getD 5 0 ++
              p.getD 6 0 ++ p.getD 7 0
            sourceNetworkAddress := p.getD 8 0 ++ p.getD 9 0
            receiveOptions := p.getD 10 0
            sampleCount := p.getD 11 0
            digitalMask := p.getD 12 0 ++ p.getD 13 0
            analogMask := p.getD 14 0
            digitalSamples := p.getD 15 0 ++ p.getD 16 0 })) } })

/-- R152: OPAQUE retains the raw payload unmodified, beyond the 65534 bytes of R150 by the model's choice (L20). -/
def Obligations.OpaqueRetainsPayload : Prop :=
  ∀ (s : State) (t : Byte) (p : List Byte),
    exec (.opaqueFrame t p) s = .next { s with out := { s.out with decoded := some (.frame (.opaqueFrame t p)) } }

/-- R150, R152, R161, R163: a raw frame given to the decoder is decoded by its frame type alone, in one step that leaves
the parser as it is; the result retains the frame type (R151, conflict C4). That a raw frame is a stimulus whose step
reports the decoder's result is the model's choice (L5, DESIGN CHOICE), and so is that payloads beyond the 65534 bytes
of R150 are decoded by the same rules (L20, DESIGN CHOICE). -/
def Obligations.RawFrameIsDecodedByType : Prop :=
  ∀ (s : State) (raw : RawFrame) (rest : List Stimulus), s.inputs = .rawFrame raw :: rest →
    step s = .next { s with
      inputs := rest, out := { event := none, encoded := none, decoded := some (decodeRaw raw) } } ∧
    (raw.frameType = 0x88 → decodeRaw raw = decodeAtResponse raw.payload) ∧
    (raw.frameType = 0x92 → decodeRaw raw = decodeIoSample raw.payload) ∧
    (raw.frameType ≠ 0x88 → raw.frameType ≠ 0x92 →
      decodeRaw raw = .frame (.opaqueFrame raw.frameType raw.payload)) ∧
    (∀ f, decodeRaw raw = .frame f → f.frameType = raw.frameType)

/-! ### The whole step -/

/-- R100, R193: a step on the parser's ports never faults and never refuses, and it reports exactly one event when a byte
was presented without reset, and none otherwise. The stimulus is spent; that this holds of a byte presented together
with reset too is the model's choice (L17, DEDUCED), on which R120 is silent. -/
def Obligations.ParserPortStepCompletes : Prop :=
  ∀ (s : State) (rst inValid : Bool) (b : Byte) (enc : Option (Byte × Byte)) (rest : List Stimulus),
    s.inputs = .parser rst inValid b enc :: rest →
    ∃ t, step s = .next t ∧ t.inputs = rest ∧
      ((rst = false ∧ inValid = true) ↔ ∃ e, t.event = some e)

/-- Every step answers a next state, but for frame notation beyond 65534 payload bytes (R85), where it stops (L10). -/
def Obligations.EveryDefinedStepCompletes : Prop :=
  (∀ s : State, (∀ ft p rest, s.inputs = .frame ft p :: rest → p.length ≤ 65534) → ∃ t, step s = .next t) ∧
  (∀ (s : State) (ft : Byte) (p : List Byte) (rest : List Stimulus),
    s.inputs = .frame ft p :: rest → 65534 < p.length → ∃ r, step s = .refused r)

/-- A table word that is put in place to be fetched next is what the next step executes (L11, L12), on exactly the state
it was put into with its stimulus taken off; placing it leaves the payload buffer and the frame type. -/
def Obligations.PlacedWordIsRun : Prop :=
  ∀ (s : State) (nbits w : Nat) (i : Instr), decodeTableWord nbits w = some i →
    step (s.withFetchWord nbits w) = exec i { s.withFetchWord nbits w with inputs := s.inputs, out := .quiet } ∧
      (s.withFetchWord nbits w).parser.buf = s.parser.buf ∧ (s.withFetchWord nbits w).parser.ft = s.parser.ft

/-- R114: the step of a presented byte goes where the transition table says, with the table's event. -/
def Obligations.StepFollowsTransitionTable : Prop :=
  ∀ (s : State) (b : Byte) (enc : Option (Byte × Byte)) (rest : List Stimulus),
    s.inputs = .parser false true b enc :: rest →
    ∃ t, step s = .next t ∧ t.parser.st = (transitionTable s.parser b).1 ∧
      t.event = some (transitionTable s.parser b).2

/-- R114: the only ways into Rejected are the two rejections, the only ways into Idle are reset and the two checksum
outcomes, only a start marker or reset leaves Rejected, and only a start marker leaves Idle. -/
def Obligations.OnlyWaysIntoIdleAndRejected : Prop :=
  ∀ s t : State, step s = .next t →
    (t.parser.st = .rejected → s.parser.st ≠ .rejected →
      t.event = some .zeroLengthFrame ∨ t.event = some .zeroFrameType) ∧
    (t.parser.st = .idle → s.parser.st ≠ .idle →
      (∃ inValid b enc rest, s.inputs = .parser true inValid b enc :: rest) ∨ t.event = some .checksumFailed ∨
        ∃ raw, t.event = some (.frameComplete raw)) ∧
    (s.parser.st = .rejected → t.parser.st ≠ .rejected →
      (∃ inValid b enc rest, s.inputs = .parser true inValid b enc :: rest) ∨
        ((∃ enc rest, s.inputs = .parser false true 0x7E enc :: rest) ∧ t.parser.st = .readLengthHigh)) ∧
    (s.parser.st = .idle → t.parser.st ≠ .idle →
      (∃ enc rest, s.inputs = .parser false true 0x7E enc :: rest) ∧ t.parser.st = .readLengthHigh)

/-- R190: raising an exception clears the transient fields, sets the tag and reports the event, and does nothing else:
the parser holds nothing of the frame and nothing is saved. -/
def Obligations.ExceptionEntryClearsParser : Prop :=
  ∀ (s t : State) (b : Byte) (enc : Option (Byte × Byte)) (rest : List Stimulus),
    s.inputs = .parser false true b enc :: rest → step s = .next t →
    t.inputs = rest ∧
    (t.event = some .checksumFailed → t.parser =
      { st := .idle, rem := 0x0000, cks := 0x00, ftv := false, ft := 0x00, buf := [] }) ∧
    (t.event = some .zeroLengthFrame ∨ t.event = some .zeroFrameType → t.parser =
      { st := .rejected, rem := 0x0000, cks := 0x00, ftv := false, ft := 0x00, buf := [] }) ∧
    (t.event = some .framePreempted → t.parser =
      { st := .readLengthHigh, rem := 0x0000, cks := 0x00, ftv := false, ft := 0x00, buf := [] })

/-- R181: the cause of each exception, exactly, in every reachable state. -/
def Obligations.ExceptionCauses : Prop :=
  ∀ (p : ParserState) (b : Byte), p.Inv →
    ((feed p b).2 = .checksumFailed ↔ p.st = .readChecksum ∧ b ≠ 0x7E ∧ b ≠ 0xFF - p.cks) ∧
    ((feed p b).2 = .zeroLengthFrame ↔ p.st = .readLengthLow ∧ p.rem ||| b.setWidth 16 = 0) ∧
    ((feed p b).2 = .zeroFrameType ↔ p.st = .readPayload ∧ p.ftv = false ∧ b = 0x00) ∧
    ((feed p b).2 = .framePreempted ↔ b = 0x7E ∧ p.st ≠ .idle ∧ p.st ≠ .rejected)

/-- R114, R118: from every state whatever the byte 0x7E leads to a cleared ReadLengthHigh. -/
def Obligations.StartMarkerAlwaysResynchronises : Prop :=
  ∀ p : ParserState, (feed p 0x7E).1 =
    { st := .readLengthHigh, rem := 0x0000, cks := 0x00, ftv := false, ft := 0x00, buf := [] }

/-- R118: from every state whatever a five-byte stream leads to a FrameComplete. -/
def Obligations.EveryStateCanCompleteFrame : Prop :=
  ∀ (p : ParserState) (t : Byte), t ≠ 0x00 → t ≠ 0x7E → 0xFF - t ≠ 0x7E →
    (feedAll p [0x7E, 0x00, 0x01, t, 0xFF - t]).1.st = .idle ∧
    (feedAll p [0x7E, 0x00, 0x01, t, 0xFF - t]).2.getLast? = some (.frameComplete { frameType := t, payload := [] })

/-! ### Streams -/

/-- R116: the parser and the event after the step of a presented byte depend on the parser before it and the byte alone,
whatever is still to come, whatever was reported before and whatever the encoder's ports are; and a run over a stream
(bytes, with "no data" anywhere between them) that is loaded in two chunks ends in the state, and reports the events, of
the run over the stream loaded whole. -/
def Obligations.FeedingIsChunkingInvariant : Prop :=
  (∀ (p : ParserState) (b : Byte) (enc enc' : Option (Byte × Byte)) (rest rest' : List Stimulus) (out out' : Output),
    ∃ t t', step { parser := p, inputs := .parser false true b enc :: rest, out := out } = .next t ∧
      step { parser := p, inputs := .parser false true b enc' :: rest', out := out' } = .next t' ∧
      t.parser = t'.parser ∧ t.event = t'.event ∧ t.inputs = rest ∧ t'.inputs = rest') ∧
  (∀ (s : State) (xs ys : List (Option Byte)), ∃ u v,
    Sys2Proof.core.run xs.length { s with inputs := xs.map Stimulus.offer } = .next u ∧ u.inputs = [] ∧
    Sys2Proof.core.run ys.length { u with inputs := ys.map Stimulus.offer } = .next v ∧ v.inputs = [] ∧
    Sys2Proof.core.run (xs.length + ys.length) { s with inputs := (xs ++ ys).map Stimulus.offer } = .next v ∧
    State.events (xs.length + ys.length) { s with inputs := (xs ++ ys).map Stimulus.offer } =
      State.events xs.length { s with inputs := xs.map Stimulus.offer } ++
        State.events ys.length { u with inputs := ys.map Stimulus.offer })

/-- R116, R119: any number of "no data" steps between the bytes changes neither the parser nor the events. -/
def Obligations.NoDataIntervalsAreInvisible : Prop :=
  ∀ (offers : List (Option Byte)) (s : State), s.inputs = offers.map Stimulus.offer →
    (∃ u, Sys2Proof.core.run offers.length s = .next u ∧ u.inputs = [] ∧
      u.parser = (feedAll s.parser offers.reduceOption).1) ∧
    s.events offers.length = (feedAll s.parser offers.reduceOption).2

/-- R37: Idle and Rejected are the same to an observer of events. -/
def Obligations.IdleAndRejectedAreEquivalent : Prop :=
  ∀ bs : List Byte,
    (feedAll { st := .idle, rem := 0, cks := 0, ftv := false, ft := 0, buf := [] } bs).2 =
      (feedAll { st := .rejected, rem := 0, cks := 0, ftv := false, ft := 0, buf := [] } bs).2

/-- R33, R57, R143: what the parser holds after the start marker, the two length bytes and the first bytes of the frame
data: the row of R33 with the length field's value as `L`. -/
def Obligations.PartialFrameIsHeld : Prop :=
  ∀ (hi lo : Byte) (data : List Byte), hi ≠ 0x7E → lo ≠ 0x7E → 1 ≤ 256 * hi.toNat + lo.toNat →
    data.length ≤ 256 * hi.toNat + lo.toNat → (∀ b ∈ data, b ≠ 0x7E) → data.head? ≠ some 0x00 →
    let q := (feedAll ParserState.reset (0x7E :: hi :: lo :: data)).1
    q.st = (if data.length = 256 * hi.toNat + lo.toNat then .readChecksum else .readPayload) ∧
    q.rem.toNat = 256 * hi.toNat + lo.toNat - data.length ∧
    q.cks = data.foldl (· + ·) 0 ∧
    (q.ftv = true ↔ data ≠ []) ∧ q.ft = data.headD 0 ∧
    q.buf.wf ∧ q.buf.map Prod.snd = data.tail ∧ q.blen = data.length - 1 ∧
    (feedAll ParserState.reset (0x7E :: hi :: lo :: data)).2 = List.replicate (data.length + 3) .cont

/-- Every receivable frame is received: from Idle or Rejected, `FRAME(t, p)` gives Continue events and then
FrameComplete with exactly `t` and `p` (95_test_vectors.md, property 3). -/
def Obligations.ReceivableFrameIsReceived : Prop :=
  ∀ (s : ParserState) (t : Byte) (p : List Byte), s.st = .idle ∨ s.st = .rejected → Receivable t p →
    feedAll s (frameBytes t p) =
      ({ st := .idle, rem := 0x0000, cks := 0x00, ftv := false, ft := 0x00, buf := [] },
        List.replicate (p.length + 4) .cont ++ [.frameComplete { frameType := t, payload := p }])

/-- Only frames are received: when a stream fed from reset ends in a FrameComplete, it ends in the wire frame of
exactly that frame type and payload, and the frame is one of R77 / R214's receivable ones. -/
def Obligations.FrameCompleteOnlyForWireFrames : Prop :=
  ∀ (bs : List Byte) (raw : RawFrame),
    (feedAll ParserState.reset bs).2.getLast? = some (.frameComplete raw) →
    frameBytes raw.frameType raw.payload <:+ bs ∧ Receivable raw.frameType raw.payload

/-- The whole path of the machine: a receivable frame presented as one stimulus is expanded, fetched byte by byte and
reported, and the machine is ready for what follows (R70, R85; L4). -/
def Obligations.PresentedFrameIsReported : Prop :=
  ∀ (s : State) (t : Byte) (p : List Byte) (rest : List Stimulus), s.inputs = .frame t p :: rest →
    s.parser.st = .idle ∨ s.parser.st = .rejected → Receivable t p →
    Sys2Proof.core.run (p.length + 6) s = .next
      { parser := { st := .idle, rem := 0x0000, cks := 0x00, ftv := false, ft := 0x00, buf := [] }
        inputs := rest
        out :=
          { event := some (.frameComplete { frameType := t, payload := p }), encoded := none, decoded := none } }

/-- R188, R182: one start marker leads to at most one report: in every stream fed from reset, the events other than
Continue (FrameComplete and the four exceptions) are at most as many as the bytes 0x7E. -/
def Obligations.ReportsAtMostStartMarkers : Prop :=
  ∀ bs : List Byte,
    ((feedAll ParserState.reset bs).2.filter (fun e => decide (e ≠ .cont))).length ≤ bs.count 0x7E

/-- R175: the encoder's eight bytes, fed into the parser in any state, come back as the frame they encode. -/
def Obligations.EncoderParserRoundTrip : Prop :=
  ∀ (s : ParserState) (c0 c1 : Byte) (bytes : List Byte), buildAtPorts c0 c1 = .frame bytes →
    c0 ≠ 0x7E → c1 ≠ 0x7E → bytes[7]? ≠ some 0x7E →
    (feedAll s bytes).1 = { st := .idle, rem := 0x0000, cks := 0x00, ftv := false, ft := 0x00, buf := [] } ∧
    (feedAll s bytes).2 =
      (if s.st = .idle ∨ s.st = .rejected then FrameEvent.cont else .framePreempted) ::
        List.replicate 6 .cont ++ [.frameComplete { frameType := 0x08, payload := [0x01, c0, c1] }]

/-! ### The checksum -/

/-- R140 to R142: the three functions; the sum does not depend on the order of what is added. -/
def Obligations.ChecksumFunctions : Prop :=
  ∀ s b : Byte,
    (compute s).toNat = 255 - s.toNat ∧ compute s = ~~~s ∧
    (validate s b = true ↔ b = compute s) ∧ (validate s b = true ↔ (s.toNat + b.toNat) % 256 = 0xFF) ∧
    (accumulate s b).toNat = (s.toNat + b.toNat) % 256 ∧
    ∀ c : Byte, accumulate (accumulate s b) c = accumulate (accumulate s c) b

/-- R144: the checksum of any frame data validates, no single-bit flip of it does, and nor does any other byte. -/
def Obligations.ChecksumDetectsBitFlips : Prop :=
  (∀ (t : Byte) (p : List Byte),
    validate (sumBytes (t :: p)) (0xFF - sumBytes (t :: p)) = true ∧
    ∀ i, i < 8 → validate (sumBytes (t :: p)) ((0xFF - sumBytes (t :: p)) ^^^ (1 <<< i)) = false) ∧
  ∀ s c : Byte, validate s (compute s) = true ∧ (c ≠ compute s → validate s c = false)

/-- R145: a single corrupted frame-data byte changes the sum, so the checksum byte of the original no longer
validates. -/
def Obligations.ChecksumDetectsSingleByteError : Prop :=
  ∀ (xs ys : List Byte) (a b : Byte), a ≠ b →
    validate (sumBytes (xs ++ b :: ys)) (compute (sumBytes (xs ++ a :: ys))) = false

/-- R142: the sum does not depend on the order of the bytes. -/
def Obligations.ChecksumIgnoresOrder : Prop :=
  ∀ xs ys : List Byte, xs.Perm ys → sumBytes xs = sumBytes ys
end

