-- ==== Sys2Proof/Laws/Checksum.lean ====
section
/-! SUPPORT. Arithmetic of the running sum: how it grows at either end, and when a checksum byte validates. -/

namespace Sys2Proof

@[simp] theorem sumBytes_nil : sumBytes [] = 0 := rfl

/-- One more byte at the end (R142). -/
@[simp] theorem sumBytes_concat (bs : List Byte) (b : Byte) :
    sumBytes (bs ++ [b]) = accumulate (sumBytes bs) b := by
  simp [sumBytes]

theorem foldl_accumulate (bs : List Byte) (s : Byte) : bs.foldl accumulate s = s + sumBytes bs := by
  induction bs generalizing s with
  | nil => simp
  | cons b bs ih =>
    simp only [sumBytes, List.foldl_cons, accumulate] at ih ⊢
    rw [ih (s + b), ih (0 + b)]
    simp [BitVec.add_assoc]

/-- One more byte in front. -/
theorem sumBytes_cons (b : Byte) (bs : List Byte) : sumBytes (b :: bs) = b + sumBytes bs := by
  have := foldl_accumulate bs (accumulate 0 b)
  simpa [sumBytes, accumulate] using this

theorem sumBytes_append (as bs : List Byte) : sumBytes (as ++ bs) = sumBytes as + sumBytes bs := by
  rw [sumBytes, List.foldl_append, foldl_accumulate]; rfl

/-- The one byte that validates a sum (R141). -/
theorem validate_iff (s c : Byte) : validate s c = true ↔ c = compute s := by
  rw [validate, beq_iff_eq]; exact eq_comm

theorem validate_eq_false_iff (s c : Byte) : validate s c = false ↔ c ≠ compute s := by
  rw [← Bool.not_eq_true, validate_iff]

theorem compute_def (s : Byte) : compute s = 0xFF - s := rfl

end Sys2Proof
end

