-- ==== Sys2Proof/Laws/Config.lean ====
section
/-! SUPPORT. The parameters as numerals, the one spelling every proof uses. -/

namespace Sys2Proof.Config

@[simp] theorem startMarker_eq : startMarker = 0x7E#8 := rfl
@[simp] theorem payloadCap_eq : payloadCap = 65534 := rfl
@[simp] theorem atApiId_eq : atApiId = 0x08#8 := rfl
@[simp] theorem atFrameId_eq : atFrameId = 0x01#8 := rfl
@[simp] theorem atLength_eq : atLength = 0x0004#16 := rfl
@[simp] theorem atResponseType_eq : atResponseType = 0x88#8 := rfl
@[simp] theorem ioSampleType_eq : ioSampleType = 0x92#8 := rfl

end Sys2Proof.Config
end

