-- ==== Sys2Proof/Laws/Decode.lean ====
section
/-! SUPPORT. What the parts of a packed decode word are, which class a decode word selects, and the small facts about
frame bytes and checksums that every proof about encodings uses. -/

namespace Sys2Proof

open Config

/-! ### The decode word -/

section Pack

variable (c : BitVec 3) (f z k : Bool) (b : Byte)

/-- The decode word bit by bit (R74). -/
theorem getLsbD_pack (i : Nat) :
    (packStepWord c f z k b).getLsbD i =
      if i < 8 then b.getLsbD i
      else if i = 8 then k else if i = 9 then z else if i = 10 then f else c.getLsbD (i - 11) := by
  have key : (packStepWord c f z k b).getLsbD i =
      BitVec.getLsbD (w := 3 + 1 + 1 + 1 + 8)
        (c ++ BitVec.ofBool f ++ BitVec.ofBool z ++ BitVec.ofBool k ++ b) i := rfl
  rw [key]
  simp only [BitVec.getLsbD_append, BitVec.getLsbD_ofBool]
  rcases Nat.lt_or_ge i 8 with h | h
  · simp [h]
  · obtain ⟨j, rfl⟩ := Nat.exists_eq_add_of_le h
    rcases j with _ | _ | _ | j
    · simp
    · simp
    · simp
    · have h1 : ¬ 8 + (j + 1 + 1 + 1) < 8 := by omega
      have h2 : 8 + (j + 1 + 1 + 1) - 11 = j := by omega
      have h3 : ¬ 8 + (j + 1 + 1 + 1) = 9 := by omega
      have h4 : ¬ 8 + (j + 1 + 1 + 1) = 10 := by omega
      simp [h1, h2, h3, h4]

@[simp] theorem stCodeOf_pack : stCodeOf (packStepWord c f z k b) = c := by
  refine BitVec.eq_of_getLsbD_eq fun i hi => ?_
  have h1 : ¬ 11 + i < 8 := by omega
  have h2 : ¬ 11 + i = 8 := by omega
  have h3 : ¬ 11 + i = 9 := by omega
  have h4 : ¬ 11 + i = 10 := by omega
  simp [stCodeOf, getLsbD_pack, hi, h1, h2, h3, h4]

@[simp] theorem ftvOf_pack : ftvOf (packStepWord c f z k b) = f := by
  simp [ftvOf, -BitVec.getLsbD_eq_getElem, getLsbD_pack]

@[simp] theorem lzOf_pack : lzOf (packStepWord c f z k b) = z := by
  simp [lzOf, -BitVec.getLsbD_eq_getElem, getLsbD_pack]

@[simp] theorem ckokOf_pack : ckokOf (packStepWord c f z k b) = k := by
  simp [ckokOf, -BitVec.getLsbD_eq_getElem, getLsbD_pack]

@[simp] theorem byteOf_pack : byteOf (packStepWord c f z k b) = b := by
  refine BitVec.eq_of_getLsbD_eq fun i hi => ?_
  simp [byteOf, getLsbD_pack, hi]

/-- A decode word is the packing of its parts: no bit of it is read twice or not at all. -/
theorem pack_parts (w : BitVec 14) :
    packStepWord (stCodeOf w) (ftvOf w) (lzOf w) (ckokOf w) (byteOf w) = w := by
  refine BitVec.eq_of_getLsbD_eq fun i hi => ?_
  rw [getLsbD_pack]
  simp only [stCodeOf, ftvOf, lzOf, ckokOf, byteOf]
  interval_cases i <;> simp

/-- Two packed decode words are equal only part by part. -/
theorem pack_inj {c c' : BitVec 3} {f f' z z' k k' : Bool} {b b' : Byte} :
    packStepWord c f z k b = packStepWord c' f' z' k' b' ↔ c = c' ∧ f = f' ∧ z = z' ∧ k = k' ∧ b = b' := by
  constructor
  · intro h
    refine ⟨?_, ?_, ?_, ?_, ?_⟩
    · simpa using congrArg stCodeOf h
    · simpa using congrArg ftvOf h
    · simpa using congrArg lzOf h
    · simpa using congrArg ckokOf h
    · simpa using congrArg byteOf h
  · rintro ⟨rfl, rfl, rfl, rfl, rfl⟩; rfl

/-- A packed word under a packed mask is packed part by part. -/
theorem pack_and (c c' : BitVec 3) (f f' z z' k k' : Bool) (b b' : Byte) :
    packStepWord c f z k b &&& packStepWord c' f' z' k' b' =
      packStepWord (c &&& c') (f && f') (z && z') (k && k') (b &&& b') := by
  refine BitVec.eq_of_getLsbD_eq fun i hi => ?_
  simp only [BitVec.getLsbD_and, getLsbD_pack]
  split_ifs <;> rfl

end Pack

/-! ### The class of a decode word -/

/-- The class of the byte `b` in each state, in the order of R75: the start marker first, then the state, and within a
state the special value before the general case. -/
def stepClass (c : BitVec 3) (f z k : Bool) (b : Byte) : Instr :=
  if b = startMarker then (if c = 0 then .start else if c = 5 then .restart else .preempt)
  else if c = 0 then .garbage b
  else if c = 5 then .absorb b
  else if c = 1 then .lenHi b
  else if c = 2 then (if z ∧ b = 0x00 then .lenLoZero else .lenLo b)
  else if c = 3 then (if f then .data b else if b = 0x00 then .typeZero else .typeByte b)
  else if k then .cksumOk b else .cksumBad b

/-- The first row of the table that selects a decode word is the row of `stepClass` (R74, R75): the one lemma about
the table that later proofs cite. -/
theorem decodeStepWord_pack (c : BitVec 3) (f z k : Bool) (b : Byte) (h : c.toNat < 6) :
    decodeStepWord (packStepWord c f z k b) = .ok (stepClass c f z k b) := by
  have hand (x : Byte) : x &&& 255#8 = x := BitVec.and_allOnes
  have m1 : (0x38FF : BitVec 14) = packStepWord 7 false false false 0xFF := by decide
  have m2 : (0x00FF : BitVec 14) = packStepWord 0 false false false 0xFF := by decide
  have m3 : (0x3800 : BitVec 14) = packStepWord 7 false false false 0x00 := by decide
  have m4 : (0x3AFF : BitVec 14) = packStepWord 7 false true false 0xFF := by decide
  have m5 : (0x3CFF : BitVec 14) = packStepWord 7 true false false 0xFF := by decide
  have m6 : (0x3C00 : BitVec 14) = packStepWord 7 true false false 0x00 := by decide
  have m7 : (0x3900 : BitVec 14) = packStepWord 7 false false true 0x00 := by decide
  have v1 : (0x007E : BitVec 14) = packStepWord 0 false false false 0x7E := by decide
  have v2 : (0x287E : BitVec 14) = packStepWord 5 false false false 0x7E := by decide
  have v3 : (0x0000 : BitVec 14) = packStepWord 0 false false false 0x00 := by decide
  have v4 : (0x2800 : BitVec 14) = packStepWord 5 false false false 0x00 := by decide
  have v5 : (0x0800 : BitVec 14) = packStepWord 1 false false false 0x00 := by decide
  have v6 : (0x1200 : BitVec 14) = packStepWord 2 false true false 0x00 := by decide
  have v7 : (0x1000 : BitVec 14) = packStepWord 2 false false false 0x00 := by decide
  have v8 : (0x1800 : BitVec 14) = packStepWord 3 false false false 0x00 := by decide
  have v9 : (0x1C00 : BitVec 14) = packStepWord 3 true false false 0x00 := by decide
  have v10 : (0x2100 : BitVec 14) = packStepWord 4 false false true 0x00 := by decide
  have v11 : (0x2000 : BitVec 14) = packStepWord 4 false false false 0x00 := by decide
  have hc : ¬ 6 ≤ c.toNat := by omega
  have hcases : c = 0 ∨ c = 1 ∨ c = 2 ∨ c = 3 ∨ c = 4 ∨ c = 5 := by
    revert h; clear hc; revert c; decide
  simp only [decodeStepWord, stCodeOf_pack, hc, if_false, byteOf_pack, stepRows, List.find?, StepRow.selects,
    m1, m2, m3, m4, m5, m6, m7, v1, v2, v3, v4, v5, v6, v7, v8, v9, v10, v11, pack_and, beq_eq_decide, pack_inj]
  by_cases hb : b = 126#8
  · rcases hcases with rfl | rfl | rfl | rfl | rfl | rfl <;> simp [hb, stepClass]
  · by_cases h0 : b = 0#8
    · rcases hcases with rfl | rfl | rfl | rfl | rfl | rfl <;> cases f <;> cases z <;> cases k <;>
        simp [h0, stepClass]
    · rcases hcases with rfl | rfl | rfl | rfl | rfl | rfl <;> cases f <;> cases z <;> cases k <;>
        simp [hb, h0, hand, stepClass]

end Sys2Proof
end

