-- ==== Sys2Proof/Laws/Frames.lean ====
section
/-! SUPPORT. The wire frame of a frame type and payload, part by part: its two length bytes carry the length (R72), and
its bytes are the fields of R71. -/

namespace Sys2Proof

open Config

/-- The length bytes are the two halves of the length field, high byte first. -/
theorem lengthBytes_eq (n : Nat) : ∃ hi lo : Byte, lengthBytes n = [hi, lo] ∧ hi ++ lo = BitVec.ofNat 16 (n + 1) := by
  refine ⟨_, _, rfl, BitVec.eq_of_getLsbD_eq fun i hi => ?_⟩
  have key (x : BitVec 16) : BitVec.getLsbD (w := 16) (x.extractLsb' 8 8 ++ x.extractLsb' 0 8) i =
      BitVec.getLsbD (w := 8 + 8) (x.extractLsb' 8 8 ++ x.extractLsb' 0 8) i := rfl
  rw [key, BitVec.getLsbD_append]
  rcases Nat.lt_or_ge i 8 with h | h
  · simp [h]
  · have h1 : i - 8 < 8 := by omega
    have h2 : 8 + (i - 8) = i := by omega
    simp [Nat.not_lt.mpr h, h1, h2]

/-- The value of two bytes, high byte first (R72). -/
theorem append_toNat (hi lo : Byte) : (hi ++ lo).toNat = 256 * hi.toNat + lo.toNat := by
  rw [BitVec.toNat_append, ← Nat.shiftLeft_add_eq_or_of_lt lo.isLt, Nat.shiftLeft_eq]
  omega

/-- The value of the length field of a payload of at most 65534 bytes (R85). -/
theorem lengthField_toNat {n : Nat} (h : n ≤ payloadCap) : (BitVec.ofNat 16 (n + 1)).toNat = n + 1 := by
  simp only [BitVec.toNat_ofNat]
  exact Nat.mod_eq_of_lt (by simp only [payloadCap] at h; omega)

/-- Two bytes whose value is the length are the length bytes. -/
theorem lengthBytes_of_toNat {n : Nat} {hi lo : Byte} (hn : n ≤ payloadCap)
    (h : 256 * hi.toNat + lo.toNat = n + 1) : lengthBytes n = [hi, lo] := by
  obtain ⟨hi', lo', h1, h2⟩ := lengthBytes_eq n
  have h3 := lengthField_toNat hn
  rw [← h2, append_toNat] at h3
  have := hi.isLt
  have := lo.isLt
  have := hi'.isLt
  have := lo'.isLt
  rw [h1, show hi' = hi from BitVec.eq_of_toNat_eq (by omega), show lo' = lo from BitVec.eq_of_toNat_eq (by omega)]

/-- The wire frame field by field (R70). -/
theorem frameBytes_eq (t : Byte) (p : List Byte) : ∃ hi lo : Byte,
    frameBytes t p = startMarker :: hi :: lo :: t :: (p ++ [compute (sumBytes (t :: p))]) ∧
      lengthBytes p.length = [hi, lo] ∧ hi ++ lo = BitVec.ofNat 16 (p.length + 1) := by
  obtain ⟨hi, lo, h, hv⟩ := lengthBytes_eq p.length
  exact ⟨hi, lo, by simp [frameBytes, h], h, hv⟩

/-- Payload and checksum byte come apart again. -/
theorem dropLast_getLastD (p : List Byte) (k : Byte) :
    (p ++ [k]).dropLast = p ∧ (p ++ [k]).getLastD 0 = k := by
  simp [List.getLastD_eq_getLast?]

/-- What the decoder makes of a wire frame (R70, R79). -/
theorem decodeWire_frameBytes (t : Byte) (p : List Byte) (h : p.length ≤ payloadCap) :
    decodeWire (frameBytes t p) =
      match atShape t p with
      | some (c0, c1) => .ok (.atCommand c0 c1 (compute (sumBytes (t :: p))))
      | none => .ok (.apiFrame t p) := by
  obtain ⟨hi, lo, hf, -, hv⟩ := frameBytes_eq t p
  have hl := lengthField_toNat h
  obtain ⟨hd, hk⟩ := dropLast_getLastD p (compute (sumBytes (t :: p)))
  rw [hf]
  simp only [decodeWire, hv, hl, hd, hk, List.length_append, List.length_singleton]
  cases atShape t p <;> simp

end Sys2Proof
end

