-- ==== Sys2Proof/Laws/Memory.lean ====
section
/-! SUPPORT. The laws of the payload buffer: what a read gives after a write, and that every memory operation keeps the
canonical form. -/

namespace Sys2Proof.Machine

@[simp] theorem Memory.bytes_nil : Memory.bytes [] = [] := rfl

@[simp] theorem Memory.read_nil (a : Nat) : Memory.read [] a = none := rfl

@[simp] theorem Memory.length_bytes (m : Memory) : m.bytes.length = m.length := by
  simp [Memory.bytes]

/-- Reading the address just written gives the byte written. -/
theorem Memory.read_write_same (m : Memory) (a : Nat) (b : Byte) : (m.write a b).read a = some b := by
  induction m with
  | nil => simp [Memory.write, Memory.read]
  | cons c m ih =>
    obtain ⟨k, v⟩ := c
    simp only [Memory.write]
    split
    · simp [Memory.read]
    · split
      · simp [Memory.read]
      · next h => simp [Memory.read, h, ih]

/-- A write leaves every other address alone. -/
theorem Memory.read_write_other (m : Memory) {a a' : Nat} (b : Byte) (h : a' ≠ a) :
    (m.write a b).read a' = m.read a' := by
  induction m with
  | nil => simp [Memory.write, Memory.read, h]
  | cons c m ih =>
    obtain ⟨k, v⟩ := c
    simp only [Memory.write]
    split
    · simp [Memory.read, h]
    · split
      · next hk => subst hk; simp [Memory.read, h]
      · simp [Memory.read, ih]

/-- A write above every listed address appends. -/
theorem Memory.write_above (m : Memory) (a : Nat) (b : Byte) (h : ∀ c ∈ m, c.1 < a) :
    m.write a b = m ++ [(a, b)] := by
  induction m with
  | nil => rfl
  | cons c m ih =>
    obtain ⟨k, v⟩ := c
    have hk : k < a := h (k, v) (by simp)
    have ht := ih fun c hc => h c (by simp [hc])
    simp [Memory.write, Nat.not_lt.mpr hk.le, hk.ne', ht]

theorem Memory.wf_nil : Memory.wf [] := rfl

/-- In the canonical form every listed address is below the length. -/
theorem Memory.wf.lt {m : Memory} (h : m.wf) {c : Host.Cell} (hc : c ∈ m) : c.1 < m.length := by
  have : c.1 ∈ List.range m.length := h ▸ List.mem_map_of_mem hc
  simpa using this

/-- The append of R52 adds the cell at `blen`. -/
theorem Memory.wf.write_length {m : Memory} (h : m.wf) (b : Byte) : m.write m.length b = m ++ [(m.length, b)] :=
  Memory.write_above m _ b fun _ hc => h.lt hc

/-- The append keeps the canonical form. -/
theorem Memory.wf.append {m : Memory} (h : m.wf) (b : Byte) : (m.write m.length b).wf := by
  rw [h.write_length]
  simp [Memory.wf, List.range_succ, show m.map Prod.fst = List.range m.length from h]

/-- Overwriting a listed address keeps the listed addresses, whatever they are. -/
theorem Memory.write_mem_map_fst (m : Memory) (a : Nat) (b : Byte) (hr : m.Pairwise fun c d => c.1 < d.1)
    (ha : a ∈ m.map Prod.fst) : (m.write a b).map Prod.fst = m.map Prod.fst := by
  induction m with
  | nil => simp at ha
  | cons c m ih =>
    obtain ⟨k, v⟩ := c
    rw [List.pairwise_cons] at hr
    simp only [List.map_cons, List.mem_cons] at ha
    simp only [Memory.write]
    split
    · next hlt =>
      rcases ha with rfl | ha
      · exact absurd hlt (lt_irrefl _)
      · obtain ⟨d, hd, rfl⟩ := List.mem_map.mp ha
        exact absurd (hr.1 d hd) (by simpa using Nat.le_of_lt hlt)
    · split
      · next h => simp [h]
      · next h => simpa using ih hr.2 (ha.resolve_left h)

theorem Memory.wf.sorted {m : Memory} (h : m.wf) : m.Pairwise fun c d => c.1 < d.1 := by
  have : (m.map Prod.fst).Pairwise (· < ·) := by
    rw [show m.map Prod.fst = List.range m.length from h]; exact List.pairwise_lt_range
  simpa [List.pairwise_map] using this

/-- Every write at an address of the buffer or just above it keeps the canonical form. -/
theorem Memory.wf.write {m : Memory} (h : m.wf) {a : Nat} (ha : a ≤ m.length) (b : Byte) : (m.write a b).wf := by
  rcases ha.lt_or_eq with hlt | rfl
  · have hm := Memory.write_mem_map_fst m a b h.sorted
      (by rw [show m.map Prod.fst = List.range m.length from h]; simpa using hlt)
    have hl : (m.write a b).length = m.length := by simpa using congrArg List.length hm
    rw [Memory.wf, hm, hl]; exact h
  · exact h.append b

/-- The bytes of the buffer after the append. -/
theorem Memory.wf.bytes_append {m : Memory} (h : m.wf) (b : Byte) :
    (m.write m.length b).bytes = m.bytes ++ [b] := by
  rw [h.write_length]; simp [Memory.bytes]

/-- Reading below the end of a longer list reads the list. -/
theorem Memory.read_append (m n : Memory) (a : Nat) :
    Memory.read (m ++ n) a = (m.read a).or (Memory.read n a) := by
  induction m with
  | nil => simp
  | cons c m ih =>
    obtain ⟨k, v⟩ := c
    by_cases h : a = k <;> simp [Memory.read, h, ih]

/-- A memory that lists no entry at `a` has no value there. -/
theorem Memory.read_eq_none (m : Memory) (a : Nat) (h : ∀ c ∈ m, c.1 ≠ a) : m.read a = none := by
  induction m with
  | nil => rfl
  | cons c m ih =>
    obtain ⟨k, v⟩ := c
    have hk : a ≠ k := fun e => h (k, v) (by simp) e.symm
    simp [Memory.read, hk, ih fun c hc => h c (by simp [hc])]

/-- In the canonical form the buffer is the byte sequence of R25: `MemRead(i, 1)` is element `i` of it (R53). -/
theorem Memory.wf.read_eq {m : Memory} (h : m.wf) (a : Nat) : m.read a = m.bytes[a]? := by
  induction m using List.reverseRecOn with
  | nil => simp
  | append_singleton m c ih =>
    obtain ⟨k, v⟩ := c
    have h' := h
    simp only [Memory.wf, List.map_append, List.map_cons, List.map_nil, List.length_append, List.length_cons,
      List.length_nil, Nat.zero_add, List.range_succ] at h'
    obtain ⟨hm, hk⟩ := List.append_inj' h' rfl
    have hk : k = m.length := by simpa using hk
    subst hk
    rw [Memory.read_append, ih hm]
    rcases Nat.lt_trichotomy a m.length with hlt | rfl | hgt
    · simp [Memory.bytes, List.getElem?_append, hlt]
    · simp [Memory.bytes, Memory.read]
    · have : ¬ a < m.length := by omega
      have ha : a ≠ m.length := by omega
      simp [Memory.bytes, Memory.read, List.getElem?_append, this, ha]
      omega

end Sys2Proof.Machine
end

