-- ==== Sys2Proof/Laws/State.lean ====
section
/-! SUPPORT. One lemma per field per update, each true by rfl, so that no proof unfolds a record update. -/

namespace Sys2Proof.Machine

section Parser

variable (p : ParserState) (b : Byte) (t : Tag)

@[simp] theorem ParserState.clear_st : p.clear.st = p.st := rfl
@[simp] theorem ParserState.clear_rem : p.clear.rem = 0 := rfl
@[simp] theorem ParserState.clear_cks : p.clear.cks = 0 := rfl
@[simp] theorem ParserState.clear_ftv : p.clear.ftv = false := rfl
@[simp] theorem ParserState.clear_ft : p.clear.ft = 0 := rfl
@[simp] theorem ParserState.clear_buf : p.clear.buf = [] := rfl

@[simp] theorem ParserState.goto_st : (p.goto t).st = t := rfl
@[simp] theorem ParserState.goto_rem : (p.goto t).rem = p.rem := rfl
@[simp] theorem ParserState.goto_cks : (p.goto t).cks = p.cks := rfl
@[simp] theorem ParserState.goto_ftv : (p.goto t).ftv = p.ftv := rfl
@[simp] theorem ParserState.goto_ft : (p.goto t).ft = p.ft := rfl
@[simp] theorem ParserState.goto_buf : (p.goto t).buf = p.buf := rfl

/-- Clearing and moving forgets the state before: what every clearing step leaves (R26). -/
@[simp] theorem ParserState.clear_goto : p.clear.goto t = .cleared t := rfl

@[simp] theorem ParserState.startFrame_eq : p.startFrame = .cleared .readLengthHigh := rfl

@[simp] theorem ParserState.cleared_st : (ParserState.cleared t).st = t := rfl
@[simp] theorem ParserState.cleared_rem : (ParserState.cleared t).rem = 0 := rfl
@[simp] theorem ParserState.cleared_cks : (ParserState.cleared t).cks = 0 := rfl
@[simp] theorem ParserState.cleared_ftv : (ParserState.cleared t).ftv = false := rfl
@[simp] theorem ParserState.cleared_ft : (ParserState.cleared t).ft = 0 := rfl
@[simp] theorem ParserState.cleared_buf : (ParserState.cleared t).buf = [] := rfl

theorem ParserState.reset_eq_cleared : ParserState.reset = .cleared .idle := rfl

@[simp] theorem ParserState.consume_rem : (p.consume b).rem = p.rem - 1 := rfl
@[simp] theorem ParserState.consume_cks : (p.consume b).cks = accumulate p.cks b := rfl
@[simp] theorem ParserState.consume_ftv : (p.consume b).ftv = p.ftv := rfl
@[simp] theorem ParserState.consume_ft : (p.consume b).ft = p.ft := rfl
@[simp] theorem ParserState.consume_buf : (p.consume b).buf = p.buf := rfl
@[simp] theorem ParserState.consume_st :
    (p.consume b).st = if p.rem - 1 = 0 then Tag.readChecksum else Tag.readPayload := rfl

@[simp] theorem ParserState.append_st : (p.append b).st = p.st := rfl
@[simp] theorem ParserState.append_rem : (p.append b).rem = p.rem := rfl
@[simp] theorem ParserState.append_cks : (p.append b).cks = p.cks := rfl
@[simp] theorem ParserState.append_ftv : (p.append b).ftv = p.ftv := rfl
@[simp] theorem ParserState.append_ft : (p.append b).ft = p.ft := rfl
@[simp] theorem ParserState.append_buf : (p.append b).buf = p.buf.write p.blen b := rfl

@[simp] theorem ParserState.rawFrame_frameType : p.rawFrame.frameType = p.ft := rfl
@[simp] theorem ParserState.rawFrame_payload : p.rawFrame.payload = p.buf.bytes := rfl

end Parser

section Machine

variable (s : State) (p : ParserState) (e : FrameEvent) (x : FramingError) (bs : List Byte)

@[simp] theorem State.report_parser : (s.report p e).parser = p := rfl
@[simp] theorem State.report_inputs : (s.report p e).inputs = s.inputs := rfl
@[simp] theorem State.report_out : (s.report p e).out = { s.out with event := some e } := rfl
@[simp] theorem State.report_event : (s.report p e).event = some e := rfl

@[simp] theorem State.quiet_parser : (s.quiet p).parser = p := rfl
@[simp] theorem State.quiet_inputs : (s.quiet p).inputs = s.inputs := rfl
@[simp] theorem State.quiet_out : (s.quiet p).out = { s.out with event := none } := rfl
@[simp] theorem State.quiet_event : (s.quiet p).event = none := rfl

@[simp] theorem State.raise_parser : (s.raise x).parser = .cleared x.tagAfter := rfl
@[simp] theorem State.raise_inputs : (s.raise x).inputs = s.inputs := rfl
@[simp] theorem State.raise_out : (s.raise x).out = { s.out with event := some x.event } := rfl

@[simp] theorem State.resume_parser : s.resume.parser = .cleared .readLengthHigh := rfl
@[simp] theorem State.resume_inputs : s.resume.inputs = s.inputs := rfl
@[simp] theorem State.resume_out : s.resume.out = { s.out with event := some .cont } := rfl

@[simp] theorem State.present_parser : (s.present bs).parser = s.parser := rfl
@[simp] theorem State.present_inputs : (s.present bs).inputs = bs.map Stimulus.byte ++ s.inputs := rfl
@[simp] theorem State.present_out : (s.present bs).out = s.out := rfl

@[simp] theorem State.reset_parser : State.reset.parser = .reset := rfl
@[simp] theorem State.reset_inputs : State.reset.inputs = [] := rfl
@[simp] theorem State.reset_out : State.reset.out = .quiet := rfl

end Machine

end Sys2Proof.Machine
end

