-- ==== Sys2Proof/Laws/Step.lean ====
section
/-! SUPPORT. What a step can do, said once: each meaning as an equation, the class a byte-step runs, the effect of a
byte-step on ParserState by cases of the state before (`feed_eq`), and the inversion of a step that answers a next
state (`step_next_cases`). -/

namespace Sys2Proof.Machine

open Config

/-! ### The meanings -/

section Exec

variable (s : State) (b c0 c1 k t : Byte) (payload : List Byte)

@[simp] theorem exec_start : exec .start s = .next s.resume := rfl
@[simp] theorem exec_restart : exec .restart s = .next s.resume := rfl
@[simp] theorem exec_preempt : exec .preempt s = .next (s.raise .framePreempted) := rfl
@[simp] theorem exec_garbage : exec (.garbage b) s = .next (s.report s.parser .cont) := rfl
@[simp] theorem exec_absorb : exec (.absorb b) s = .next (s.report s.parser .cont) := rfl
@[simp] theorem exec_lenHi : exec (.lenHi b) s =
    .next (s.report { s.parser with rem := lengthFromHigh b, st := .readLengthLow } .cont) := rfl
@[simp] theorem exec_lenLo : exec (.lenLo b) s =
    .next (s.report { s.parser with rem := lengthWithLow s.parser.rem b, st := .readPayload } .cont) := rfl
@[simp] theorem exec_lenLoZero : exec .lenLoZero s = .next (s.raise .zeroLengthFrame) := rfl
@[simp] theorem exec_typeByte : exec (.typeByte b) s =
    .next (s.report { s.parser.consume b with ft := b, ftv := true } .cont) := rfl
@[simp] theorem exec_typeZero : exec .typeZero s = .next (s.raise .zeroFrameType) := rfl
@[simp] theorem exec_data : exec (.data b) s = .next (s.report ((s.parser.append b).consume b) .cont) := rfl
@[simp] theorem exec_cksumOk : exec (.cksumOk b) s =
    .next (s.report (.cleared .idle) (.frameComplete s.parser.rawFrame)) := rfl
@[simp] theorem exec_cksumBad : exec (.cksumBad b) s = .next (s.raise .checksumFailed) := rfl
@[simp] theorem exec_reset : exec .reset s = .next (s.quiet .reset) := rfl
@[simp] theorem exec_noData : exec .noData s = .next (s.quiet s.parser) := rfl
@[simp] theorem exec_buildAt : exec (.buildAt c0 c1) s =
    .next { s with out := { s.out with encoded := some (buildAtPorts c0 c1) } } := rfl
@[simp] theorem exec_atCommand : exec (.atCommand c0 c1 k) s = .next (s.present (atFrameBytes c0 c1 k)) := rfl
@[simp] theorem exec_atResponse : exec (.atResponse payload) s =
    .next { s with out := { s.out with decoded := some (decodeAtResponse payload) } } := rfl
@[simp] theorem exec_ioSample : exec (.ioSample payload) s =
    .next { s with out := { s.out with decoded := some (decodeIoSample payload) } } := rfl
@[simp] theorem exec_opaqueFrame : exec (.opaqueFrame t payload) s =
    .next { s with out := { s.out with decoded := some (.frame (.opaqueFrame t payload)) } } := rfl

theorem exec_apiFrame (h : payload.length ≤ payloadCap) :
    exec (.apiFrame t payload) s = .next (s.present (frameBytes t payload)) := by
  simp [exec, execApiFrame, h]

end Exec

/-! ### Byte-steps -/

theorem Tag.code_lt (t : Tag) : t.code.toNat < 6 := by cases t <;> decide

theorem Tag.ofCode_code (t : Tag) : Tag.ofCode t.code = some t := by cases t <;> rfl

theorem ParserState.lengthHighZero_iff (p : ParserState) :
    p.lengthHighZero = true ↔ p.rem.extractLsb' 8 8 = 0#8 := by
  simp [ParserState.lengthHighZero]

theorem ParserState.checksumValid_iff (p : ParserState) (b : Byte) :
    p.checksumValid b = true ↔ b = 0xFF - p.cks := validate_iff _ _

/-- The class of the byte `b` in the parser state `p` (R74, R75). -/
def ParserState.classOf (p : ParserState) (b : Byte) : Instr :=
  stepClass p.st.code p.ftv p.lengthHighZero (p.checksumValid b) b

theorem decode_decodeWord (p : ParserState) (b : Byte) :
    decode (.stepWord (p.decodeWord b)) = .ok (p.classOf b) :=
  decodeStepWord_pack _ _ _ _ _ p.st.code_lt

theorem ParserState.runs_iff (p : ParserState) (b : Byte) (i : Instr) : p.Runs b i ↔ p.classOf b = i := by
  simp [ParserState.Runs, decode_decodeWord]

@[simp] theorem Stimulus.code_byte (p : ParserState) (b : Byte) (enc : Option (Byte × Byte)) :
    (Stimulus.parser false true b enc).code p = .stepWord (p.decodeWord b) := rfl

/-- The output ports after a step of the parser with the ports `enc` driven beside it: its event, and the encoder's
result (R10). -/
def portsAfter (e : Option FrameEvent) (enc : Option (Byte × Byte)) : Output :=
  { event := e, encoded := enc.map fun c => buildAtPorts c.1 c.2, decoded := none }

/-- A presented byte runs its class (R100). -/
theorem step_byte (s : State) (b : Byte) (enc : Option (Byte × Byte)) (rest : List Stimulus)
    (h : s.inputs = .parser false true b enc :: rest) :
    step s = exec (s.parser.classOf b) { s with inputs := rest, out := portsAfter none enc } := by
  simp only [step, h, Stimulus.code_byte, decode_decodeWord]
  rfl

/-- The state after and the event of a byte-step, by the state before (R101 to R113). -/
def ParserState.byteEffect (p : ParserState) (b : Byte) : ParserState × FrameEvent :=
  match p.st with
  | .idle => if b = startMarker then (.cleared .readLengthHigh, .cont) else (p, .cont)
  | .rejected => if b = startMarker then (.cleared .readLengthHigh, .cont) else (p, .cont)
  | .readLengthHigh =>
    if b = startMarker then (.cleared .readLengthHigh, .framePreempted)
    else ({ p with rem := lengthFromHigh b, st := .readLengthLow }, .cont)
  | .readLengthLow =>
    if b = startMarker then (.cleared .readLengthHigh, .framePreempted)
    else if p.rem.extractLsb' 8 8 = 0x00#8 ∧ b = 0x00 then (.cleared .rejected, .zeroLengthFrame)
    else ({ p with rem := lengthWithLow p.rem b, st := .readPayload }, .cont)
  | .readPayload =>
    if b = startMarker then (.cleared .readLengthHigh, .framePreempted)
    else if p.ftv = true then ((p.append b).consume b, .cont)
    else if b = 0x00 then (.cleared .rejected, .zeroFrameType)
    else ({ p.consume b with ft := b, ftv := true }, .cont)
  | .readChecksum =>
    if b = startMarker then (.cleared .readLengthHigh, .framePreempted)
    else if b = 0xFF - p.cks then (.cleared .idle, .frameComplete p.rawFrame)
    else (.cleared .idle, .checksumFailed)

/-- A byte-step answers a next state, and this one: it consumes the one byte, reports one event, and changes nothing
but ParserState (R100). -/
theorem exec_classOf (s : State) (b : Byte) :
    exec (s.parser.classOf b) s = .next (s.report (s.parser.byteEffect b).1 (s.parser.byteEffect b).2) := by
  obtain ⟨⟨st, rem, cks, ftv, ft, buf⟩, inputs, out⟩ := s
  by_cases hb : b = 126#8
  · cases st <;> simp [ParserState.classOf, stepClass, Tag.code, ParserState.byteEffect, hb] <;> rfl
  · cases st
    case readLengthLow =>
      have hi := ParserState.lengthHighZero_iff ⟨.readLengthLow, rem, cks, ftv, ft, buf⟩
      by_cases hz : rem.extractLsb' 8 8 = 0#8 ∧ b = 0#8
      · simp [ParserState.classOf, stepClass, Tag.code, ParserState.byteEffect, hi.mpr hz.1, hz]; rfl
      · simp [ParserState.classOf, stepClass, Tag.code, ParserState.byteEffect, hb, hi, hz]
    case readPayload =>
      cases ftv
      · by_cases h0 : b = 0#8
        · simp [ParserState.classOf, stepClass, Tag.code, ParserState.byteEffect, h0]; rfl
        · simp [ParserState.classOf, stepClass, Tag.code, ParserState.byteEffect, hb, h0]
      · simp [ParserState.classOf, stepClass, Tag.code, ParserState.byteEffect, hb]
    case readChecksum =>
      have hi := ParserState.checksumValid_iff ⟨.readChecksum, rem, cks, ftv, ft, buf⟩ b
      by_cases hk : b = 0xFF - cks
      · simp only [ParserState.classOf, stepClass, hi.mpr hk, ParserState.byteEffect, if_pos hk]
        simp [hb, Tag.code]
      · simp only [ParserState.classOf, stepClass, mt hi.mp hk, ParserState.byteEffect, if_neg hk]
        simp [hb, Tag.code]
        rfl
    all_goals simp [ParserState.classOf, stepClass, Tag.code, ParserState.byteEffect, hb]

/-- A step with a byte presented, as an equation. -/
theorem step_byte_eq (s : State) (b : Byte) (enc : Option (Byte × Byte)) (rest : List Stimulus)
    (h : s.inputs = .parser false true b enc :: rest) :
    step s = .next { parser := (s.parser.byteEffect b).1, inputs := rest,
                     out := portsAfter (some (s.parser.byteEffect b).2) enc } := by
  rw [step_byte s b enc rest h]
  exact exec_classOf { s with inputs := rest, out := portsAfter none enc } b

/-- `feed` is the effect of a byte-step (R100). -/
theorem feed_eq (p : ParserState) (b : Byte) : feed p b = p.byteEffect b := by
  have h := step_byte_eq { parser := p, inputs := [.byte b], out := .quiet } b none [] rfl
  simp [feed, h, State.event, portsAfter]

@[simp] theorem feedAll_nil (p : ParserState) : feedAll p [] = (p, []) := rfl

theorem feedAll_cons (p : ParserState) (b : Byte) (bs : List Byte) :
    feedAll p (b :: bs) = ((feedAll (feed p b).1 bs).1, (feed p b).2 :: (feedAll (feed p b).1 bs).2) := rfl

/-! ### The other stimuli -/

/-- With no stimulus the step is NODATA (R11 b, R119). -/
theorem step_nil (s : State) (h : s.inputs = []) : step s = .next { s with out := .quiet } := by
  simp only [step, h]
  rfl

/-- Every step takes the parser where the head of the inputs says: `rst` resets it, a presented byte has its effect,
and anything else leaves it (R119, R120, R163, R170). -/
def parserAfter (p : ParserState) : Stimulus → ParserState
  | .parser true _ _ _ => .reset
  | .parser false true b _ => (p.byteEffect b).1
  | .parser false false _ _ => p
  | .encoder _ _ => p
  | .frame _ _ => p
  | .atFrame _ _ _ => p
  | .rawFrame _ => p

/-- The event a step reports: that of the byte-step, where one is presented without reset, and none otherwise. -/
def eventAfter (p : ParserState) : Stimulus → Option FrameEvent
  | .parser true _ _ _ => none
  | .parser false true b _ => some (p.byteEffect b).2
  | .parser false false _ _ => none
  | .encoder _ _ => none
  | .frame _ _ => none
  | .atFrame _ _ _ => none
  | .rawFrame _ => none

/-- A step on the parser's ports, with or without the encoder's driven beside them, as an equation (R10, R83). -/
theorem step_ports (s : State) (rst inValid : Bool) (b : Byte) (enc : Option (Byte × Byte)) (rest : List Stimulus)
    (h : s.inputs = .parser rst inValid b enc :: rest) :
    step s = .next
      { parser := parserAfter s.parser (.parser rst inValid b enc), inputs := rest,
        out := portsAfter (eventAfter s.parser (.parser rst inValid b enc)) enc } := by
  cases rst with
  | true => simp only [step, h]; cases inValid <;> rfl
  | false =>
    cases inValid with
    | true => exact step_byte_eq s b enc rest h
    | false => simp only [step, h]; rfl

/-- Instructions that are decoded from frames leave the parser and the event port as they are. -/
theorem exec_decodeWire_frame {bs : List Byte} {i : Instr} {s t : State} (hd : decodeWire bs = .ok i)
    (h : exec i s = .next t) : t.parser = s.parser ∧ t.event = s.event := by
  unfold decodeWire at hd
  split at hd
  · split at hd
    · cases hd
    split at hd
    · cases hd
    split at hd
    · cases hd
    split at hd
    · cases hd; cases h; exact ⟨rfl, rfl⟩
    split at hd
    · cases hd
      simp only [exec, execApiFrame] at h
      split at h
      · cases h; exact ⟨rfl, rfl⟩
      · cases h
    · cases hd
  · cases hd

/-- So do instructions that are decoded from raw frames. -/
theorem exec_decodeFrameData_frame {bs : List Byte} {i : Instr} {s t : State} (hd : decodeFrameData bs = .ok i)
    (h : exec i s = .next t) : t.parser = s.parser ∧ t.event = s.event := by
  unfold decodeFrameData at hd
  split at hd
  · cases hd
  · split_ifs at hd <;> (cases hd; cases h; exact ⟨rfl, rfl⟩)

/-- The inversion of a step: if it answers a next state, the parser is where `parserAfter` says and the event is the
one of `eventAfter`. -/
theorem step_next_cases {s t : State} (h : step s = .next t) :
    (s.inputs = [] ∧ t = { s with out := .quiet }) ∨
      ∃ x rest, s.inputs = x :: rest ∧ t.parser = parserAfter s.parser x ∧ t.event = eventAfter s.parser x := by
  cases hi : s.inputs with
  | nil =>
    rw [step_nil s hi] at h
    cases h
    exact .inl ⟨rfl, by rw [← hi]⟩
  | cons x rest =>
    refine .inr ⟨x, rest, rfl, ?_⟩
    cases x with
    | parser rst inValid b enc =>
      rw [step_ports s rst inValid b enc rest hi] at h
      cases h
      exact ⟨rfl, rfl⟩
    | encoder c0 c1 =>
      simp only [step, hi, Stimulus.code, decode] at h
      cases h
      exact ⟨rfl, rfl⟩
    | frame ft payload =>
      simp only [step, hi, Stimulus.code, decode] at h
      split at h
      · next hd => exact exec_decodeWire_frame hd h
      · next e _ => cases e <;> cases h
    | atFrame c0 c1 k =>
      simp only [step, hi, Stimulus.code, decode] at h
      split at h
      · next hd => exact exec_decodeWire_frame hd h
      · next e _ => cases e <;> cases h
    | rawFrame raw =>
      simp only [step, hi, Stimulus.code, decode] at h
      split at h
      · next hd => exact exec_decodeFrameData_frame hd h
      · next e _ => cases e <;> cases h

end Sys2Proof.Machine
end

