-- ==== Sys2Proof/Laws/Invariant.lean ====
section
/-! SUPPORT. The shapes of the invariant: which parser states meet it, and that a frame-data byte keeps a partly
received frame one. -/

namespace Sys2Proof.Machine

open Config

/-! ### The length -/

theorem lengthFromHigh_toNat (b : Byte) : (lengthFromHigh b).toNat = 256 * b.toNat := by
  have := b.isLt
  simp [lengthFromHigh, BitVec.toNat_shiftLeft, Nat.shiftLeft_eq]
  omega

/-- With the low byte still zero the OR of R107 is an addition. -/
theorem lengthWithLow_toNat (r : Half) (b : Byte) (h : r.extractLsb' 0 8 = 0#8) :
    (lengthWithLow r b).toNat = r.toNat + b.toNat := by
  have hand : r &&& b.setWidth 16 = 0#16 := by
    refine BitVec.eq_of_getLsbD_eq fun i hi => ?_
    have hr := congrArg (·.getLsbD i) h
    simp only [BitVec.getLsbD_extractLsb', BitVec.getLsbD_zero, Nat.zero_add] at hr
    rcases Nat.lt_or_ge i 8 with h8 | h8
    · simp [show r.getLsbD i = false by simpa [h8] using hr]
    · simp [BitVec.getLsbD_of_ge b i h8]
  have h' := congrArg BitVec.toNat h
  have := r.isLt
  have := b.isLt
  rw [lengthWithLow, ← BitVec.add_eq_or_of_and_eq_zero _ _ hand, BitVec.toNat_add, BitVec.toNat_setWidth]
  simp [BitVec.extractLsb'_toNat] at h'
  omega

/-- The high byte of a length whose low byte is zero. -/
theorem lengthHighZero_iff_zero (r : Half) (h : r.extractLsb' 0 8 = 0#8) :
    r.extractLsb' 8 8 = 0#8 ↔ r.toNat = 0 := by
  have h1 := congrArg BitVec.toNat h
  have := r.isLt
  simp [BitVec.extractLsb'_toNat] at h1
  constructor
  · intro h2
    have h2 := congrArg BitVec.toNat h2
    simp [BitVec.extractLsb'_toNat, Nat.shiftRight_eq_div_pow] at h2
    omega
  · intro h2
    apply BitVec.eq_of_toNat_eq
    simp [BitVec.extractLsb'_toNat, Nat.shiftRight_eq_div_pow, h2]

theorem rem_sub_one_toNat {r : Half} (h : 1 ≤ r.toNat) : (r - 1).toNat = r.toNat - 1 := by
  rw [BitVec.toNat_sub_of_le]
  · rfl
  · rw [BitVec.le_def]; simpa using h

/-! ### States that meet the invariant -/

theorem ParserState.cleared_inv {t : Tag} (ht : t = .idle ∨ t = .readLengthHigh ∨ t = .rejected) :
    (ParserState.cleared t).Inv := by
  rcases ht with rfl | rfl | rfl <;> exact ⟨by simp, by simp, by simp, by simp⟩

/-- A partly received frame in RP with something to come, or a wholly received one in RC. -/
theorem ParserState.Filled.inv {p : ParserState} (h : p.Filled)
    (hst : p.st = if p.rem = 0 then .readChecksum else .readPayload) : p.Inv := by
  by_cases hr : p.rem = 0
  · rw [if_pos hr] at hst
    exact ⟨by simp [hst], by simp [hst], by simp [hst], fun _ => ⟨hr, h⟩⟩
  · rw [if_neg hr] at hst
    refine ⟨by simp [hst], by simp [hst], fun _ => ⟨?_, .inl h⟩, by simp [hst]⟩
    exact Nat.one_le_iff_ne_zero.mpr fun h0 => hr (BitVec.eq_of_toNat_eq (by simpa using h0))

/-- DATA keeps a partly received frame one (R111). -/
theorem ParserState.Filled.data {p : ParserState} (h : p.Filled) (hr : 1 ≤ p.rem.toNat) {b : Byte}
    (hb : b ≠ startMarker) : ((p.append b).consume b).Filled := by
  obtain ⟨hv, h0, h7, hw, hn, hc, hl⟩ := h
  have hbytes : ((p.append b).consume b).buf.bytes = p.buf.bytes ++ [b] := hw.bytes_append b
  have hdata : ((p.append b).consume b).frameData = p.frameData ++ [b] := by
    simp only [ParserState.frameData, hbytes]; simp [hv]
  refine ⟨hv, h0, h7, hw.append b, ?_, ?_, ?_⟩
  · intro x hx
    rw [hbytes, List.mem_append, List.mem_singleton] at hx
    rcases hx with hx | rfl
    · exact hn x hx
    · exact hb
  · rw [hdata, sumBytes_concat, ← hc]; rfl
  · have := rem_sub_one_toNat hr
    simp only [ParserState.frameLength, hdata, List.length_append, List.length_singleton] at hl ⊢
    simp only [ParserState.consume_rem, ParserState.append_rem]
    omega

/-- TYPE makes the first byte of the frame data a partly received frame (R109). -/
theorem ParserState.typed_filled {p : ParserState} (h : p = .lengthOnly .readPayload p.rem) (hr : 1 ≤ p.rem.toNat)
    {b : Byte} (h0 : b ≠ 0x00) (hb : b ≠ startMarker) :
    ({ p.consume b with ft := b, ftv := true } : ParserState).Filled := by
  have hs := rem_sub_one_toNat hr
  have hlt := p.rem.isLt
  have hbuf : p.buf = [] := by rw [h]; rfl
  have hcks : p.cks = 0 := by rw [h]; rfl
  refine ⟨rfl, h0, hb, ?_, ?_, ?_, ?_⟩
  · rw [show ({ p.consume b with ft := b, ftv := true } : ParserState).buf = p.buf from rfl, hbuf]; rfl
  · rw [show ({ p.consume b with ft := b, ftv := true } : ParserState).buf = p.buf from rfl, hbuf]; simp
  · simp [ParserState.frameData, ParserState.consume, hbuf, hcks, sumBytes]
  · simp [ParserState.frameLength, ParserState.frameData, ParserState.consume, hbuf]
    simp at hs
    omega

end Sys2Proof.Machine
end

