-- ==== Sys2Proof/Laws/PerInstr.lean ====
section
/-! SUPPORT. One family of laws made per instruction: the encoder writes each instruction as a word of its own row of
spec/opcode_table.json, every fixed bit of the row in place and every operand where the row's fields have it. -/

namespace Sys2Proof.Laws.RowEncoding

open Sys2Proof Sys2Proof.Config

/-- The instruction's code is a decode word that meets mask and match of its row and carries the input byte `b`. -/
def StepCode (i : Instr) (mask value : BitVec 14) (b : Byte) : Prop :=
  ∃ w, encode i = .stepWord w ∧ w &&& mask = value ∧ byteOf w = b

/-- The encoding column of the opcode table (R70, R74, R79, R83, R152, R153, R157), row by row. -/
def Statement : Instr → Prop
  | .start => StepCode .start 0x38FF 0x007E 0x7E
  | .restart => StepCode .restart 0x38FF 0x287E 0x7E
  | .preempt => StepCode .preempt 0x00FF 0x007E 0x7E
  | .garbage b => StepCode (.garbage b) 0x3800 0x0000 b
  | .absorb b => StepCode (.absorb b) 0x3800 0x2800 b
  | .lenHi b => StepCode (.lenHi b) 0x3800 0x0800 b
  | .lenLoZero => StepCode .lenLoZero 0x3AFF 0x1200 0x00
  | .lenLo b => StepCode (.lenLo b) 0x3800 0x1000 b
  | .typeZero => StepCode .typeZero 0x3CFF 0x1800 0x00
  | .typeByte b => StepCode (.typeByte b) 0x3C00 0x1800 b
  | .data b => StepCode (.data b) 0x3C00 0x1C00 b
  | .cksumOk b => StepCode (.cksumOk b) 0x3900 0x2100 b
  | .cksumBad b => StepCode (.cksumBad b) 0x3800 0x2000 b
  | .reset => ∃ inValid, encode .reset = .ports true inValid
  | .noData => encode .noData = .ports false false
  | .buildAt c0 c1 => encode (.buildAt c0 c1) = .encoderPorts c0 c1
  | .apiFrame t p => p.length ≤ payloadCap → ∃ hi lo : Byte, 256 * hi.toNat + lo.toNat = p.length + 1 ∧
      encode (.apiFrame t p) = .wire (0x7E :: hi :: lo :: t :: p ++ [0xFF - sumBytes (t :: p)])
  | .atCommand c0 c1 k => ∃ bs, encode (.atCommand c0 c1 k) = .wire bs ∧
      bs.take 5 = [0x7E, 0x00, 0x04, 0x08, 0x01] ∧ bs.drop 5 = [c0, c1, k]
  | .atResponse p => encode (.atResponse p) = .frameData (0x88 :: p)
  | .ioSample p => encode (.ioSample p) = .frameData (0x92 :: p)
  | .opaqueFrame t p => encode (.opaqueFrame t p) = .frameData (t :: p)

/-- A packed word meets a row's mask and match when its fields do. -/
theorem stepCode_pack {i : Instr} {c : BitVec 3} {f z k : Bool} {b : Byte} {mask value : BitVec 14}
    (c' : BitVec 3) (f' z' k' : Bool) (m : Byte) (hi : encode i = .stepWord (packStepWord c f z k b))
    (hm : mask = packStepWord c' f' z' k' m)
    (hv : packStepWord (c &&& c') (f && f') (z && z') (k && k') (b &&& m) = value) : StepCode i mask value b :=
  ⟨_, hi, by rw [hm, pack_and, hv], byteOf_pack ..⟩

/-- The same for a mask that leaves the input byte free: its value has 0 there. -/
theorem stepCode_free {i : Instr} {c : BitVec 3} {f z k : Bool} {b : Byte} {mask value : BitVec 14}
    (c' : BitVec 3) (f' z' k' : Bool) (hi : encode i = .stepWord (packStepWord c f z k b))
    (hm : mask = packStepWord c' f' z' k' 0x00)
    (hv : packStepWord (c &&& c') (f && f') (z && z') (k && k') 0x00 = value) : StepCode i mask value b :=
  stepCode_pack c' f' z' k' 0x00 hi hm (by rw [← hv]; simp)

theorem start : Statement .start := stepCode_pack 7 false false false 0xFF rfl (by decide) (by decide)
theorem restart : Statement .restart := stepCode_pack 7 false false false 0xFF rfl (by decide) (by decide)
theorem preempt : Statement .preempt := stepCode_pack 0 false false false 0xFF rfl (by decide) (by decide)
theorem garbage (b : Byte) : Statement (.garbage b) := stepCode_free 7 false false false rfl (by decide) (by decide)
theorem absorb (b : Byte) : Statement (.absorb b) := stepCode_free 7 false false false rfl (by decide) (by decide)
theorem lenHi (b : Byte) : Statement (.lenHi b) := stepCode_free 7 false false false rfl (by decide) (by decide)
theorem lenLoZero : Statement .lenLoZero := stepCode_pack 7 false true false 0xFF rfl (by decide) (by decide)
theorem lenLo (b : Byte) : Statement (.lenLo b) := stepCode_free 7 false false false rfl (by decide) (by decide)
theorem typeZero : Statement .typeZero := stepCode_pack 7 true false false 0xFF rfl (by decide) (by decide)
theorem typeByte (b : Byte) : Statement (.typeByte b) := stepCode_free 7 true false false rfl (by decide) (by decide)
theorem data (b : Byte) : Statement (.data b) := stepCode_free 7 true false false rfl (by decide) (by decide)
theorem cksumOk (b : Byte) : Statement (.cksumOk b) := stepCode_free 7 false false true rfl (by decide) (by decide)
theorem cksumBad (b : Byte) : Statement (.cksumBad b) := stepCode_free 7 false false false rfl (by decide) (by decide)
theorem reset : Statement .reset := ⟨false, rfl⟩
theorem noData : Statement .noData := rfl
theorem buildAt (c0 c1 : Byte) : Statement (.buildAt c0 c1) := rfl

theorem apiFrame (t : Byte) (p : List Byte) : Statement (.apiFrame t p) := by
  intro h
  obtain ⟨hi, lo, hf, -, hv⟩ := frameBytes_eq t p
  refine ⟨hi, lo, ?_, ?_⟩
  · rw [← append_toNat, hv, lengthField_toNat h]
  · rw [encode, hf]
    rfl

theorem atCommand (c0 c1 k : Byte) : Statement (.atCommand c0 c1 k) := ⟨_, rfl, rfl, rfl⟩
theorem atResponse (p : List Byte) : Statement (.atResponse p) := rfl
theorem ioSample (p : List Byte) : Statement (.ioSample p) := rfl
theorem opaqueFrame (t : Byte) (p : List Byte) : Statement (.opaqueFrame t p) := rfl

end Sys2Proof.Laws.RowEncoding
end

