-- ==== Sys2Proof/Tests/Slice0.lean ====
section
/-! SUPPORT. Tests. Expected results are the source's and the spec's own vectors (spec/95_test_vectors.md: S1 to S7,
V1 to V24, P1), the encodings are written out from the encoding column of spec/opcode_table.json, and for every statement
with hypotheses a `witness_` theorem shows a state and operands that meet them. -/

namespace Sys2Proof.Tests

open Sys2Proof Sys2Proof.Machine

/-! ### WellFormed refuses -/

theorem test_garbage_start_marker_refused : ¬ WellFormed (.garbage 0x7E) := by decide
theorem test_absorb_start_marker_refused : ¬ WellFormed (.absorb 0x7E) := by decide
theorem test_lenHi_start_marker_refused : ¬ WellFormed (.lenHi 0x7E) := by decide
theorem test_lenLo_start_marker_refused : ¬ WellFormed (.lenLo 0x7E) := by decide
theorem test_typeByte_start_marker_refused : ¬ WellFormed (.typeByte 0x7E) := by decide
theorem test_typeByte_zero_refused : ¬ WellFormed (.typeByte 0x00) := by decide
theorem test_data_start_marker_refused : ¬ WellFormed (.data 0x7E) := by decide
theorem test_cksumOk_start_marker_refused : ¬ WellFormed (.cksumOk 0x7E) := by decide
theorem test_cksumBad_start_marker_refused : ¬ WellFormed (.cksumBad 0x7E) := by decide
theorem test_apiFrame_of_at_shape_refused : ¬ WellFormed (.apiFrame 0x08 [0x01, 0x49, 0x44]) := by decide
theorem test_opaque_at_response_refused : ¬ WellFormed (.opaqueFrame 0x88 []) := by decide
theorem test_opaque_io_sample_refused : ¬ WellFormed (.opaqueFrame 0x92 []) := by decide
/-- A frame of another type than 0x08 is refused for its length alone. -/
theorem wellFormed_zeros (n : Nat) : WellFormed (.apiFrame 0x10 (List.replicate n 0x00)) ↔ n ≤ 65534 := by
  have h : atShape 0x10 (List.replicate n 0x00) = none := by
    unfold atShape
    split
    · exact if_neg fun hc => absurd hc.1 (by decide)
    · rfl
  simp only [WellFormed, Instr.wellFormed, h, List.length_replicate, Option.isNone_none, Bool.and_true,
    decide_eq_true_eq]

theorem test_longest_apiFrame_accepted : WellFormed (.apiFrame 0x10 (List.replicate 65534 0x00)) :=
  (wellFormed_zeros 65534).mpr (by decide)
theorem test_apiFrame_overlong_refused : ¬ WellFormed (.apiFrame 0x10 (List.replicate 65535 0x00)) :=
  (wellFormed_zeros 65535).not.mpr (by decide)

/-! ### Decoding, from the encoding column of the table: `st ftv lz ckok b` -/

theorem test_decode_start : decode (.stepWord 0b000_0_0_0_01111110) = .ok .start := by decide
theorem test_decode_start_free_bits : decode (.stepWord 0b000_1_1_1_01111110) = .ok .start := by decide
theorem test_decode_restart : decode (.stepWord 0b101_1_0_1_01111110) = .ok .restart := by decide
theorem test_decode_preempt_first : decode (.stepWord 0b001_0_1_0_01111110) = .ok .preempt := by decide
theorem test_decode_preempt_last : decode (.stepWord 0b100_1_1_1_01111110) = .ok .preempt := by decide
theorem test_decode_garbage : decode (.stepWord 0b000_1_1_1_01111111) = .ok (.garbage 0x7F) := by decide
theorem test_decode_absorb : decode (.stepWord 0b101_0_0_0_00110011) = .ok (.absorb 0x33) := by decide
theorem test_decode_lenHi : decode (.stepWord 0b001_0_1_0_00000000) = .ok (.lenHi 0x00) := by decide
theorem test_decode_lenLoZero : decode (.stepWord 0b010_1_1_1_00000000) = .ok .lenLoZero := by decide
theorem test_decode_lenLo_high_nonzero : decode (.stepWord 0b010_0_0_0_00000000) = .ok (.lenLo 0x00) := by decide
theorem test_decode_lenLo_low_nonzero : decode (.stepWord 0b010_0_1_0_00000100) = .ok (.lenLo 0x04) := by decide
theorem test_decode_typeZero : decode (.stepWord 0b011_0_1_0_00000000) = .ok .typeZero := by decide
theorem test_decode_typeByte : decode (.stepWord 0b011_0_0_1_10010010) = .ok (.typeByte 0x92) := by decide
theorem test_decode_data_zero : decode (.stepWord 0b011_1_0_0_00000000) = .ok (.data 0x00) := by decide
theorem test_decode_cksumOk : decode (.stepWord 0b100_1_1_1_01101001) = .ok (.cksumOk 0x69) := by decide
theorem test_decode_cksumBad : decode (.stepWord 0b100_1_1_0_01101000) = .ok (.cksumBad 0x68) := by decide
theorem test_decode_state_code_6 : decode (.stepWord 0b110_0_0_0_01111110) = .error .reservedStateCode := by decide
theorem test_decode_state_code_7 : decode (.stepWord 0b111_0_0_0_00000000) = .error .reservedStateCode := by decide
theorem test_decode_reset : decode (.ports true true) = .ok .reset := by decide
theorem test_decode_noData : decode (.ports false false) = .ok .noData := by decide
theorem test_decode_buildAt : decode (.encoderPorts 0x49 0x44) = .ok (.buildAt 0x49 0x44) := by decide
/-- P1, the second frame. -/
theorem test_decode_apiFrame :
    decode (.wire [0x7E, 0x00, 0x02, 0x8A, 0x06, 0x6F]) = .ok (.apiFrame 0x8A [0x06]) := by decide
/-- S1, S6. -/
theorem test_decode_atCommand :
    decode (.wire [0x7E, 0x00, 0x04, 0x08, 0x01, 0x49, 0x44, 0x69]) = .ok (.atCommand 0x49 0x44 0x69) := by decide
theorem test_decode_atResponse :
    decode (.frameData [0x88, 0x01, 0x49, 0x44, 0x00]) = .ok (.atResponse [0x01, 0x49, 0x44, 0x00]) := by decide
theorem test_decode_ioSample : decode (.frameData [0x92, 0xFF]) = .ok (.ioSample [0xFF]) := by decide
theorem test_decode_opaque : decode (.frameData [0x8A, 0x06]) = .ok (.opaqueFrame 0x8A [0x06]) := by decide
/-- Rejections, one for each name (R70, R71, R73, R83, R150). -/
theorem test_decode_rejects :
    decode (.ports false true) = .error .portsSelectByteStep ∧
    decode (.wire [0x7E, 0x00, 0x01]) = .error .truncatedFrame ∧
    decode (.wire [0x7D, 0x00, 0x01, 0x55, 0xAA]) = .error .noStartMarker ∧
    decode (.wire [0x7E, 0x00, 0x00, 0x55]) = .error .zeroLength ∧
    decode (.wire [0x7E, 0x00, 0x02, 0x55, 0xAA]) = .error .lengthMismatch ∧
    decode (.wire [0x7E, 0x00, 0x01, 0x55, 0xAB]) = .error .wrongChecksum ∧
    decode (.frameData []) = .error .noFrameType := by decide

/-! ### Small states -/

/-- A frame in progress: tag, bytes to come, sum, frame type, payload so far. -/
def typed (st : Tag) (rem : Half) (cks ft : Byte) (payload : List Byte) : ParserState :=
  { st := st, rem := rem, cks := cks, ftv := true, ft := ft, buf := (List.range payload.length).zip payload }

/-- A machine in the parser state `p` with the given stimuli. -/
def offered (p : ParserState) (xs : List Stimulus) : State := { parser := p, inputs := xs, out := .quiet }

/-- The next state, where there is one. -/
def after : Outcome → Option State
  | .next t => some t
  | _ => none

/-- One step with the byte `b`: the parser state and the event after it. -/
def fed (p : ParserState) (b : Byte) : Option (ParserState × Option FrameEvent) :=
  (after (step (offered p [.byte b]))).map fun t => (t.parser, t.event)

/-- What one step reports. -/
def reported (x : Stimulus) : Option Output := (after (step (offered .reset [x]))).map State.out

/-- The output ports with the encoder's result alone. -/
def shown (r : EncodeResult) : Output := { event := none, encoded := some r, decoded := none }

/-- The reference decoder's result alone. -/
def handed (r : DecodeResult) : Output := { event := none, encoded := none, decoded := some r }

/-! ### The thirteen step classes: one step each -/

/-- V1, step 3. -/
theorem test_start : fed .reset 0x7E = some (.cleared .readLengthHigh, some .cont) := by decide
/-- V1, step 1. -/
theorem test_garbage : fed .reset 0x55 = some (.reset, some .cont) := by decide
/-- V21, step 5: no FramePreempted out of REJ. -/
theorem test_restart : fed (.cleared .rejected) 0x7E = some (.cleared .readLengthHigh, some .cont) := by decide
/-- V21, step 4. -/
theorem test_absorb : fed (.cleared .rejected) 0x33 = some (.cleared .rejected, some .cont) := by decide
/-- S5, step 6. -/
theorem test_preempt_in_payload : fed (typed .readPayload 0x0002 0x09 0x08 [0x01]) 0x7E =
    some (.cleared .readLengthHigh, some .framePreempted) := by decide
/-- P5 (b), step 8: the checksum byte would be valid, but it is a start marker. -/
theorem test_preempt_at_checksum : fed (typed .readChecksum 0x0000 0x81 0x08 [0x01, 0x3C, 0x3C]) 0x7E =
    some (.cleared .readLengthHigh, some .framePreempted) := by decide
/-- V8, step 2. -/
theorem test_lenHi : fed (.cleared .readLengthHigh) 0xFF =
    some (.lengthOnly .readLengthLow 0xFF00, some .cont) := by decide
/-- V7, step 3: a zero low byte after a non-zero high byte. -/
theorem test_lenLo : fed (.lengthOnly .readLengthLow 0x0100) 0x00 =
    some (.lengthOnly .readPayload 0x0100, some .cont) := by decide
/-- V8, step 3. -/
theorem test_lenLo_largest : fed (.lengthOnly .readLengthLow 0xFF00) 0xFF =
    some (.lengthOnly .readPayload 0xFFFF, some .cont) := by decide
/-- S2, step 3. -/
theorem test_lenLoZero : fed (.lengthOnly .readLengthLow 0x0000) 0x00 =
    some (.cleared .rejected, some .zeroLengthFrame) := by decide
/-- V7, step 4. -/
theorem test_typeByte : fed (.lengthOnly .readPayload 0x0100) 0x41 =
    some (typed .readPayload 0x00FF 0x41 0x41 [], some .cont) := by decide
/-- V11, step 4: the shortest frame goes straight to the checksum. -/
theorem test_typeByte_last : fed (.lengthOnly .readPayload 0x0001) 0x55 =
    some (typed .readChecksum 0x0000 0x55 0x55 [], some .cont) := by decide
/-- S3, step 4. -/
theorem test_typeZero : fed (.lengthOnly .readPayload 0x0001) 0x00 =
    some (.cleared .rejected, some .zeroFrameType) := by decide
/-- P1, step 9: the sum wraps. -/
theorem test_data_wraps : fed (typed .readPayload 0x0004 0xD2 0x88 [0x01, 0x49]) 0x44 =
    some (typed .readPayload 0x0003 0x16 0x88 [0x01, 0x49, 0x44], some .cont) := by decide
/-- V14, step 6: a zero byte is ordinary data, here the last one. -/
theorem test_data_zero_last : fed (typed .readPayload 0x0001 0x10 0x10 [0x00]) 0x00 =
    some (typed .readChecksum 0x0000 0x10 0x10 [0x00, 0x00], some .cont) := by decide
/-- S1, step 8. -/
theorem test_cksumOk : fed (typed .readChecksum 0x0000 0x96 0x08 [0x01, 0x49, 0x44]) 0x69 =
    some (.reset, some (.frameComplete ⟨0x08, [0x01, 0x49, 0x44]⟩)) := by decide
/-- V12, step 5: a checksum byte of 0x00, an empty payload. -/
theorem test_cksumOk_zero : fed (typed .readChecksum 0x0000 0xFF 0xFF []) 0x00 =
    some (.reset, some (.frameComplete ⟨0xFF, []⟩)) := by decide
/-- V16, step 8. -/
theorem test_cksumBad : fed (typed .readChecksum 0x0000 0x96 0x08 [0x01, 0x49, 0x44]) 0x68 =
    some (.reset, some .checksumFailed) := by decide

/-! ### Commands, frames, reference decoder: one step each -/

/-- V20: reset with a presented byte; the byte is not consumed by the parser and no event is reported. -/
theorem test_reset :
    (after (step (offered (typed .readPayload 0x0002 0x09 0x08 [0x01]) [.parser true true 0x49 none]))).map
      (fun t => (t.parser, t.inputs, t.event)) = some (.reset, [], none) := by decide
/-- V20: "no data" leaves the frame in progress, without an event. -/
theorem test_noData :
    (after (step (offered (typed .readPayload 0x0002 0x09 0x08 [0x01]) [.parser false false 0x49 none]))).map
      (fun t => (t.parser, t.event)) = some (typed .readPayload 0x0002 0x09 0x08 [0x01], none) := by decide
/-- V22, "DEL DEL". -/
theorem test_buildAt : reported (.encoder 0x7F 0x7F) =
    some (shown (.frame [0x7E, 0x00, 0x04, 0x08, 0x01, 0x7F, 0x7F, 0xF8])) := by decide
/-- V22, "not ASCII". -/
theorem test_buildAt_not_ascii : reported (.encoder 0x41 0xFF) = some (shown .invalidCommand) := by decide
/-- R10: V22's "ID" in the step of S1's last byte, and beside a reset. -/
theorem test_encoder_beside_parser :
    (after (step (offered (typed .readChecksum 0x0000 0x96 0x08 [0x01, 0x49, 0x44])
      [.parser false true 0x69 (some (0x49, 0x44))]))).map (fun t => (t.ev, t.encErr, t.encFrame 7)) =
      some (some 1, some false, some 0x69) ∧
    (after (step (offered .reset [.parser true true 0x69 (some (0x80, 0x41))]))).map
      (fun t => (t.ev, t.encErr, t.encFrame 0)) = some (none, some true, none) := by decide
/-- P1, `FRAME(0x8A, [06])`. -/
theorem test_apiFrame : (after (step (offered .reset [.frame 0x8A [0x06], .parser true false 0x00 none]))).map State.inputs =
    some [.byte 0x7E, .byte 0x00, .byte 0x02, .byte 0x8A, .byte 0x06, .byte 0x6F, .parser true false 0x00 none] := by decide
/-- S6, with the checksum byte as it is given. -/
theorem test_atCommand : (after (step (offered .reset [.atFrame 0x49 0x44 0x68]))).map State.inputs =
    some ([0x7E, 0x00, 0x04, 0x08, 0x01, 0x49, 0x44, 0x68].map Stimulus.byte) := by decide
/-- V24. -/
theorem test_atResponse : reported (.rawFrame ⟨0x88, [0x01, 0x49, 0x44, 0xFF, 0xAB]⟩) =
    some (handed (.frame (.atCommandResponse ⟨0x01, 0x49, 0x44, .unknown 0xFF, [0xAB]⟩))) := by decide
/-- V24. -/
theorem test_atResponse_short : reported (.rawFrame ⟨0x88, [0x01, 0x49, 0x44]⟩) =
    some (handed .malformedFrame) := by decide
/-- V23, the frame of P4. -/
theorem test_ioSample : reported (.rawFrame ⟨0x92, [0x00, 0x13, 0xA2, 0x00, 0x40, 0x52, 0x2B, 0xAA, 0x7D, 0x84, 0x01,
      0x01, 0x00, 0x1C, 0x02, 0x00, 0x14, 0x02, 0x25]⟩) =
    some (handed (.frame (.ioSample
      ⟨0x0013A20040522BAA, 0x7D84, 0x01, 0x01, 0x001C, 0x02, 0x0014⟩))) := by decide
/-- V23, mask non-zero and sixteen bytes. -/
theorem test_ioSample_short : reported (.rawFrame ⟨0x92, [0x00, 0x13, 0xA2, 0x00, 0x40, 0x52, 0x2B, 0xAA, 0x7D, 0x84,
      0x01, 0x01, 0x00, 0x1C, 0x02, 0x00]⟩) = some (handed .malformedFrame) := by decide
/-- V24. -/
theorem test_opaque : reported (.rawFrame ⟨0x8A, [0x06]⟩) =
    some (handed (.frame (.opaqueFrame 0x8A [0x06]))) := by decide

/-! ### Table words put in place -/

theorem test_table_words :
    decodeTableWord 16 0x287E = some .restart ∧ decodeTableWord 16 0x2100 = some (.cksumOk 0x00) ∧
    decodeTableWord 8 0x02 = some .reset ∧ decodeTableWord 8 0x00 = some .noData ∧
    decodeTableWord 8 0x7E = some .preempt ∧
    decodeTableWord 64 0x7E00040801000000 = some (.atCommand 0x00 0x00 0x00) ∧
    decodeTableWord 8 0x88 = some (.atResponse (List.replicate 15 0x00)) ∧
    decodeTableWord 16 0x3000 = none := by decide
theorem test_fetch_restart :
    (after (step (State.reset.withFetchWord 16 0x287E))).map (fun t => (t.parser.st, t.event, t.inputs)) =
      some (.readLengthHigh, some .cont, []) := by decide
theorem test_fetch_cksumBad :
    (after (step (State.reset.withFetchWord 16 0x2000))).map State.event = some (some .checksumFailed) := by decide
theorem test_fetch_cksumOk :
    (after (step (State.reset.withFetchWord 16 0x2101))).map State.event =
      some (some (.frameComplete ⟨0x00, []⟩)) := by decide
theorem test_fetch_ioSample :
    (after (step (State.reset.withFetchWord 8 0x92))).map State.out =
      some (handed (.frame (.ioSample ⟨0, 0, 0, 0, 0, 0, 0⟩))) := by decide

/-! ### States that meet the invariants, one for each row of R33 -/

/-- S1 after step 7. -/
def beforeChecksum : ParserState := typed .readChecksum 0x0000 0x96 0x08 [0x01, 0x49, 0x44]

/-- S1 after step 5. -/
def inPayload : ParserState := typed .readPayload 0x0002 0x09 0x08 [0x01]

theorem inv_idle : ParserState.reset.Inv := ⟨by decide, by decide, by decide, by decide⟩
theorem inv_readLengthHigh : (ParserState.cleared .readLengthHigh).Inv := ⟨by decide, by decide, by decide, by decide⟩
theorem inv_rejected : (ParserState.cleared .rejected).Inv := ⟨by decide, by decide, by decide, by decide⟩
theorem inv_readLengthLow : (ParserState.lengthOnly .readLengthLow 0xFF00).Inv :=
  ⟨by decide, by decide, by decide, by decide⟩
theorem inv_readLengthLow_zero : (ParserState.lengthOnly .readLengthLow 0x0000).Inv :=
  ⟨by decide, by decide, by decide, by decide⟩
theorem inv_readPayload_untyped : (ParserState.lengthOnly .readPayload 0x0001).Inv :=
  ⟨by decide, by decide, by decide, by decide⟩
theorem inv_readPayload_typed : inPayload.Inv := ⟨by decide, by decide, by decide, by decide⟩
/-- V8 after step 4: the longest frame, nothing of its payload received. -/
theorem inv_readPayload_longest : (typed .readPayload 0xFFFE 0x01 0x01 []).Inv :=
  ⟨by decide, by decide, by decide, by decide⟩
theorem inv_readChecksum : beforeChecksum.Inv := ⟨by decide, by decide, by decide, by decide⟩

/-! ### Witnesses: the hypotheses of each statement are met -/

theorem witness_StepKeepsInvariants : (offered inPayload [.byte 0x49]).parser.Inv ∧
    ∃ t, step (offered inPayload [.byte 0x49]) = .next t := ⟨inv_readPayload_typed, _, rfl⟩

/-- A byte-step with a RawFrame, one without, and a step without a byte. -/
theorem witness_CodesOfTagsAndEvents :
    (∃ t, step (offered beforeChecksum [.byte 0x69]) = .next t ∧
      t.event = some (.frameComplete ⟨0x08, [0x01, 0x49, 0x44]⟩)) ∧
    (∃ t, step (offered .reset [.byte 0x7E]) = .next t ∧ t.event = some .cont) ∧
    (∃ t, step (offered .reset [.encoder 0x49 0x44]) = .next t) ∧ beforeChecksum.Inv ∧
    ∀ b enc rest, (offered .reset [.encoder 0x49 0x44]).inputs ≠ .parser false true b enc :: rest :=
  ⟨⟨_, rfl, by decide⟩, ⟨_, rfl, by decide⟩, ⟨_, rfl⟩, inv_readChecksum, fun _ _ _ h => by cases h⟩

theorem witness_StepRunsDecodedInstruction :
    (offered .reset [.byte 0x7E]).inputs = [.byte 0x7E] ∧
    decode ((Stimulus.byte 0x7E).code ParserState.reset) = .ok .start ∧ (offered .reset []).inputs = [] ∧
    (∀ rst inValid b enc, Stimulus.encoder 0x49 0x44 ≠ .parser rst inValid b enc) :=
  ⟨rfl, by decide, rfl, fun _ _ _ _ h => by cases h⟩

theorem witness_DecodeEncodeRoundTrip :
    WellFormed (.apiFrame 0x10 []) ∧ WellFormed (.typeByte 0x01) ∧ WellFormed (.opaqueFrame 0x89 [0x7E]) := by decide

theorem witness_DecodeYieldsWellFormed :
    decode (.wire [0x7E, 0x00, 0x01, 0x55, 0xAA]) = .ok (.apiFrame 0x55 []) ∧
    decode (.frameData [0x55]) = .ok (.opaqueFrame 0x55 []) ∧
    decode (.encoderPorts 0x00 0xFF) = .ok (.buildAt 0x00 0xFF) := by decide

theorem witness_StartBeginsFrame : ParserState.reset.st = .idle ∧ ParserState.reset.Inv := ⟨rfl, inv_idle⟩

theorem witness_GarbageIsIgnored : ParserState.reset.st = .idle ∧ (0x7D : Byte) ≠ 0x7E := by decide

theorem witness_RestartLeavesRejected : (ParserState.cleared .rejected).st = .rejected := rfl

theorem witness_AbsorbIsSilent : (ParserState.cleared .rejected).st = .rejected ∧ (0x7F : Byte) ≠ 0x7E := by decide

theorem witness_LenHiSetsHighLength :
    (ParserState.cleared .readLengthHigh).st = .readLengthHigh ∧ (0xFF : Byte) ≠ 0x7E := by decide

/-- The smallest length (low byte 1) and a zero low byte after a non-zero high byte. -/
theorem witness_LenLoCompletesLength :
    (ParserState.lengthOnly .readLengthLow 0x0000).Inv ∧ (0x0000 : Half) ||| (0x01 : Byte).setWidth 16 ≠ 0 ∧
    (ParserState.lengthOnly .readLengthLow 0xFF00).Inv ∧ (0xFF00 : Half) ||| (0x00 : Byte).setWidth 16 ≠ 0 ∧
    (0xFF00 : Half).extractLsb' 0 8 = 0x00#8 ∧ (0x01 : Byte) ≠ 0x7E :=
  ⟨inv_readLengthLow_zero, by decide, inv_readLengthLow, by decide, by decide, by decide⟩

theorem witness_ZeroLengthRejects :
    (ParserState.lengthOnly .readLengthLow 0x0000).st = .readLengthLow ∧
    (ParserState.lengthOnly .readLengthLow 0x0000).rem.extractLsb' 8 8 = 0x00#8 := by decide

theorem witness_TypeStoresFrameType :
    (ParserState.lengthOnly .readPayload 0x0001).Inv ∧ (ParserState.lengthOnly .readPayload 0x0001).st = .readPayload ∧
    (ParserState.lengthOnly .readPayload 0x0001).ftv = false ∧ (0x01 : Byte) ≠ 0x00 ∧ (0x01 : Byte) ≠ 0x7E :=
  ⟨inv_readPayload_untyped, rfl, rfl, by decide, by decide⟩

theorem witness_ZeroTypeRejects :
    (ParserState.lengthOnly .readPayload 0x0001).st = .readPayload ∧
    (ParserState.lengthOnly .readPayload 0x0001).ftv = false := by decide

theorem witness_DataAppendsPayloadByte :
    inPayload.Inv ∧ inPayload.st = .readPayload ∧ inPayload.ftv = true ∧ (0x00 : Byte) ≠ 0x7E :=
  ⟨inv_readPayload_typed, rfl, rfl, by decide⟩

theorem witness_DataStoresAtBlenOnly : ∃ t, exec (.data 0x49) (offered inPayload []) = .next t ∧
    (offered inPayload []).parser.blen = 1 ∧ (offered inPayload []).parser.buf.wf := ⟨_, rfl, by decide, by decide⟩

theorem witness_OtherFormsStoreNothing :
    (∃ t, exec .preempt (offered inPayload []) = .next t) ∧ (∃ t, exec (.lenLo 0x01) (offered inPayload []) = .next t) ∧
    ∃ t, exec (.buildAt 0x49 0x44) (offered inPayload []) = .next t := ⟨⟨_, rfl⟩, ⟨_, rfl⟩, ⟨_, rfl⟩⟩

theorem witness_ValidChecksumCompletesFrame :
    beforeChecksum.Inv ∧ beforeChecksum.st = .readChecksum ∧ (0x69 : Byte) ≠ 0x7E ∧ 0x69 = 0xFF - beforeChecksum.cks :=
  ⟨inv_readChecksum, by decide, by decide, by decide⟩

theorem witness_WrongChecksumFailsFrame :
    beforeChecksum.st = .readChecksum ∧ (0x68 : Byte) ≠ 0x7E ∧ 0x68 ≠ 0xFF - beforeChecksum.cks := by decide

theorem witness_RawFrameReadsBuffer : beforeChecksum.buf.wf ∧ ParserState.reset.buf.wf := by decide

theorem witness_ResetDropsFrameSilently :
    (offered inPayload [.parser true true 0x49 none]).inputs = [.parser true true 0x49 none] ∧
    ∃ t, exec .reset (offered inPayload []) = .next t := ⟨rfl, _, rfl⟩

theorem witness_NoDataChangesNothing :
    (offered inPayload [.parser false false 0x00 none]).inputs = [.parser false false 0x00 none] := rfl

theorem witness_BuildAtMakesFrameOrError :
    (∃ t, exec (.buildAt 0x7F 0x00) (offered inPayload []) = .next t) ∧
    (∃ t, exec (.buildAt 0x80 0x00) (offered inPayload []) = .next t) ∧
    (0x7F : Byte).toNat ≤ 0x7F ∧ (0x00 : Byte).toNat ≤ 0x7F ∧ 0x80 ≤ (0x80 : Byte).toNat ∧
    ([0x49] : List Byte).length ≠ 2 ∧ ([] : List Byte).length ≠ 2 :=
  ⟨⟨_, rfl⟩, ⟨_, rfl⟩, by decide, by decide, by decide, by decide, by decide⟩

/-- The shortest payload, the longest one, and the first one beyond. -/
theorem witness_ApiFramePresentsWireBytes :
    256 * (0x00 : Byte).toNat + (0x01 : Byte).toNat = ([] : List Byte).length + 1 ∧
    256 * (0xFF : Byte).toNat + (0xFF : Byte).toNat = (List.replicate 65534 (0x00 : Byte)).length + 1 ∧
    (List.replicate 65534 (0x00 : Byte)).length ≤ 65534 ∧ 65534 < (List.replicate 65535 (0x00 : Byte)).length := by
  simp only [List.length_replicate, List.length_nil]
  decide

theorem witness_AtResponseDecodesFields :
    ([] : List Byte).length < 4 ∧ ([0x01, 0x49, 0x44] : List Byte).length < 4 := by decide

/-- The fifteen bytes `p15z` and `p15n` of V23, with the mask bytes 12 and 13 given. -/
def p15 (m0 m1 : Byte) : List Byte :=
  [0x00, 0x13, 0xA2, 0x00, 0x40, 0x52, 0x2B, 0xAA, 0x7D, 0x84, 0x01, 0x01, m0, m1, 0x02]

theorem witness_IoSampleDecodesFields :
    ((p15 0x00 0x00).take 14).length < 15 ∧
    (15 ≤ (p15 0x00 0x00).length ∧ ((p15 0x00 0x00).getD 12 0 ++ (p15 0x00 0x00).getD 13 0 : BitVec 16) = 0) ∧
    (15 ≤ (p15 0x00 0x1C).length ∧ (p15 0x00 0x1C).length < 17 ∧
      ((p15 0x00 0x1C).getD 12 0 ++ (p15 0x00 0x1C).getD 13 0 : BitVec 16) ≠ 0) ∧
    (17 ≤ (p15 0xFF 0xFF ++ [0x00, 0x14]).length ∧
      ((p15 0xFF 0xFF).getD 12 0 ++ (p15 0xFF 0xFF).getD 13 0 : BitVec 16) ≠ 0) := by decide

theorem witness_EncoderRunsBesideParser :
    buildAtPorts 0x7F 0x00 = .frame [0x7E, 0x00, 0x04, 0x08, 0x01, 0x7F, 0x00, 0x77] ∧
    0x80 ≤ (0x80 : Byte).toNat ∧ (0x7F : Byte).toNat ≤ 0x7F := by decide

theorem witness_RawFrameIsDecodedByType :
    (offered .reset [.rawFrame ⟨0x88, []⟩]).inputs = [.rawFrame ⟨0x88, []⟩] ∧
    (0x89 : Byte) ≠ 0x88 ∧ (0x91 : Byte) ≠ 0x92 ∧
    decodeRaw ⟨0x55, []⟩ = .frame (.opaqueFrame 0x55 []) := by decide

theorem witness_ParserPortStepCompletes :
    (offered inPayload [.parser false true 0x7E none]).inputs = [.parser false true 0x7E none] := rfl

theorem witness_EveryDefinedStepCompletes :
    (∀ ft p rest, (offered .reset [.frame 0x55 []]).inputs = .frame ft p :: rest → p.length ≤ 65534) ∧
    65534 < (List.replicate 65535 (0x00 : Byte)).length ∧
    (offered .reset [.frame 0x55 (List.replicate 65535 0x00)]).inputs = [.frame 0x55 (List.replicate 65535 0x00)] := by
  refine ⟨?_, by simp only [List.length_replicate]; decide, rfl⟩
  intro ft p rest h
  cases h
  decide

theorem witness_PlacedWordIsRun : decodeTableWord 16 0x1C49 = some (.data 0x49) := by decide

theorem witness_StepFollowsTransitionTable :
    (offered beforeChecksum [.byte 0x69]).inputs = [.byte 0x69] := rfl

/-- A step into Rejected, one into Idle, one out of Rejected, one out of Idle. -/
theorem witness_OnlyWaysIntoIdleAndRejected :
    (∃ t, step (offered (.lengthOnly .readLengthLow 0x0000) [.byte 0x00]) = .next t ∧ t.parser.st = .rejected) ∧
    (∃ t, step (offered beforeChecksum [.byte 0x69]) = .next t ∧ t.parser.st = .idle) ∧
    (∃ t, step (offered (.cleared .rejected) [.byte 0x7E]) = .next t ∧ t.parser.st ≠ .rejected) ∧
    ∃ t, step (offered .reset [.byte 0x7E]) = .next t ∧ t.parser.st ≠ .idle :=
  ⟨⟨_, rfl, by decide⟩, ⟨_, rfl, by decide⟩, ⟨_, rfl, by decide⟩, ⟨_, rfl, by decide⟩⟩

/-- One step for each of the four exceptions. -/
theorem witness_ExceptionEntryClearsParser :
    (∃ t, step (offered beforeChecksum [.byte 0x68]) = .next t ∧ t.event = some .checksumFailed) ∧
    (∃ t, step (offered (.lengthOnly .readLengthLow 0x0000) [.byte 0x00]) = .next t ∧
      t.event = some .zeroLengthFrame) ∧
    (∃ t, step (offered (.lengthOnly .readPayload 0x0001) [.byte 0x00]) = .next t ∧ t.event = some .zeroFrameType) ∧
    ∃ t, step (offered beforeChecksum [.byte 0x7E]) = .next t ∧ t.event = some .framePreempted :=
  ⟨⟨_, rfl, by decide⟩, ⟨_, rfl, by decide⟩, ⟨_, rfl, by decide⟩, ⟨_, rfl, by decide⟩⟩

theorem witness_ExceptionCauses : beforeChecksum.Inv ∧ (ParserState.lengthOnly .readLengthLow 0x0000).Inv ∧
    (ParserState.lengthOnly .readPayload 0x0001).Inv :=
  ⟨inv_readChecksum, inv_readLengthLow_zero, inv_readPayload_untyped⟩

theorem witness_EveryStateCanCompleteFrame :
    (0x01 : Byte) ≠ 0x00 ∧ (0x01 : Byte) ≠ 0x7E ∧ (0xFF - 0x01 : Byte) ≠ 0x7E ∧
    (0xFF : Byte) ≠ 0x7E ∧ (0xFF - 0xFF : Byte) ≠ 0x7E := by decide

theorem witness_NoDataIntervalsAreInvisible :
    (offered .reset [.byte 0x7E, .parser false false 0x00 none, .byte 0x00]).inputs =
      ([some 0x7E, none, some 0x00] : List (Option Byte)).map Stimulus.offer := by decide

/-- No frame data yet of the longest frame, and all of the shortest. -/
theorem witness_PartialFrameIsHeld :
    ((0xFF : Byte) ≠ 0x7E ∧ 1 ≤ 256 * (0xFF : Byte).toNat + (0xFF : Byte).toNat) ∧
    ([0x55] : List Byte).length ≤ 256 * (0x00 : Byte).toNat + (0x01 : Byte).toNat ∧
    (∀ b ∈ ([0x55] : List Byte), b ≠ 0x7E) ∧ ([0x55] : List Byte).head? ≠ some 0x00 := by decide

/-- The shortest receivable frame (V11), and S1. -/
theorem witness_ReceivableFrameIsReceived : Receivable 0x55 [] ∧ Receivable 0x08 [0x01, 0x49, 0x44] ∧
    ParserState.reset.st = .idle ∧ (ParserState.cleared .rejected).st = .rejected := by decide

theorem sum_of_zeros (n : Nat) (t : Byte) : sumBytes (t :: List.replicate n 0x00) = t := by
  have h : ∀ x : Byte, (List.replicate n 0x00).foldl accumulate x = x := by
    induction n with
    | zero => exact fun _ => rfl
    | succ n ih => simpa [List.replicate_succ, accumulate] using ih
  exact (h _).trans (BitVec.zero_add t)

/-- A payload of zeros is receivable at every length whose length field has no 0x7E. -/
theorem receivable_zeros (n : Nat) (h : n ≤ 65534) (hl : ∀ b ∈ lengthBytes n, b ≠ 0x7E) :
    Receivable 0x01 (List.replicate n 0x00) := by
  refine ⟨by decide, by decide, ?_, ?_, ?_, ?_⟩
  · rw [List.length_replicate]
    exact h
  · intro b hb
    rw [(List.mem_replicate.mp hb).2]
    decide
  · rw [List.length_replicate]
    exact hl
  · rw [sum_of_zeros]
    decide

/-- The longest receivable frame: length field 0xFFFF (V8). -/
theorem witness_longest_receivable : Receivable 0x01 (List.replicate 65534 0x00) :=
  receivable_zeros 65534 (by decide) (by decide)

/-- V11: the five bytes of the shortest frame. -/
theorem witness_FrameCompleteOnlyForWireFrames :
    (feedAll .reset [0x7E, 0x00, 0x01, 0x55, 0xAA]).2.getLast? = some (.frameComplete ⟨0x55, []⟩) := by decide

theorem witness_PresentedFrameIsReported :
    (offered .reset [.frame 0x55 []]).inputs = [.frame 0x55 []] ∧ (offered .reset []).parser.st = .idle ∧
    Receivable 0x55 [] := by decide

/-- V22, "NI" and "NUL NUL". -/
theorem witness_EncoderParserRoundTrip :
    buildAtPorts 0x4E 0x49 = .frame [0x7E, 0x00, 0x04, 0x08, 0x01, 0x4E, 0x49, 0x5F] ∧
    buildAtPorts 0x00 0x00 = .frame [0x7E, 0x00, 0x04, 0x08, 0x01, 0x00, 0x00, 0xF6] ∧
    (0x4E : Byte) ≠ 0x7E ∧ (0x49 : Byte) ≠ 0x7E ∧ (0x00 : Byte) ≠ 0x7E ∧
    ([0x7E, 0x00, 0x04, 0x08, 0x01, 0x4E, 0x49, 0x5F] : List Byte)[7]? ≠ some 0x7E := by decide

theorem witness_ChecksumDetectsBitFlips : (0 : Nat) < 8 ∧ (7 : Nat) < 8 ∧ (0x68 : Byte) ≠ compute 0x96 := by decide

theorem witness_ChecksumDetectsSingleByteError : (0x00 : Byte) ≠ 0x01 := by decide

theorem witness_ChecksumIgnoresOrder : ([0x01, 0x02] : List Byte).Perm [0x02, 0x01] := by decide

end Sys2Proof.Tests
end

/-! The FrameEncoder beside the parser: what its ports show of a result, which bytes it rejects, and that the
parser's part of a step does not look at the encoder's ports. -/

namespace Sys2Proof.Machine

/-! ### The encoder's ports (R12, R83) -/

theorem State.encErr_of_encoded {s : State} {r : EncodeResult} (h : s.out.encoded = some r) :
    s.encErr = some (r == .invalidCommand) := by
  simp [State.encErr, h]

theorem State.encFrame_of_frame {s : State} {bytes : List Byte} (h : s.out.encoded = some (.frame bytes)) (i : Nat) :
    s.encFrame i = bytes[i]? := by
  simp [State.encFrame, h]

theorem State.encErr_of_not_encoded {s : State} (h : s.out.encoded = none) : s.encErr = none := by
  simp [State.encErr, h]

theorem State.encFrame_of_not_encoded {s : State} (h : s.out.encoded = none) (i : Nat) : s.encFrame i = none := by
  simp [State.encFrame, h]

/-! ### The bytes accepted (R172, R173, D15) -/

/-- Bit 7 of a byte is its being 0x80 or above. -/
theorem getLsbD_seven_iff (b : Byte) : b.getLsbD 7 = true ↔ 0x80 ≤ b.toNat := by
  have hmsb : b.getLsbD 7 = b.msb := b.msb_eq_getLsbD_last.symm
  rw [hmsb, BitVec.msb_eq_decide, decide_eq_true_iff]

/-- The encoder rejects exactly where one of its bytes is not ASCII. -/
theorem buildAtPorts_eq_invalidCommand_iff (c0 c1 : Byte) :
    buildAtPorts c0 c1 = .invalidCommand ↔ 0x80 ≤ c0.toNat ∨ 0x80 ≤ c1.toNat := by
  rw [← getLsbD_seven_iff c0, ← getLsbD_seven_iff c1, ← Bool.or_eq_true, buildAtPorts]
  split
  · next h => simp only [h]
  · next h => simp only [h, reduceCtorEq]

theorem State.encErr_eq_true_iff {s : State} {c0 c1 : Byte} (h : s.out.encoded = some (buildAtPorts c0 c1)) :
    s.encErr = some true ↔ 0x80 ≤ c0.toNat ∨ 0x80 ≤ c1.toNat := by
  rw [State.encErr_of_encoded h, Option.some_inj, beq_iff_eq, buildAtPorts_eq_invalidCommand_iff]

theorem State.encErr_eq_false_iff {s : State} {c0 c1 : Byte} (h : s.out.encoded = some (buildAtPorts c0 c1)) :
    s.encErr = some false ↔ c0.toNat ≤ 0x7F ∧ c1.toNat ≤ 0x7F := by
  rw [State.encErr_of_encoded h, Option.some_inj, beq_eq_false_iff_ne, ne_eq, buildAtPorts_eq_invalidCommand_iff]
  omega

/-! ### The parser's part of a step -/

/-- The encoder's ports have no effect on the parser (R10, R174). -/
theorem parserAfter_parser_enc (p : ParserState) (rst inValid : Bool) (b : Byte) (enc enc' : Option (Byte × Byte)) :
    parserAfter p (.parser rst inValid b enc) = parserAfter p (.parser rst inValid b enc') := by
  cases rst <;> cases inValid <;> rfl

/-- The encoder's ports have no effect on the event (R10, R174). -/
theorem eventAfter_parser_enc (p : ParserState) (rst inValid : Bool) (b : Byte) (enc enc' : Option (Byte × Byte)) :
    eventAfter p (.parser rst inValid b enc) = eventAfter p (.parser rst inValid b enc') := by
  cases rst <;> cases inValid <;> rfl

/-- Settles O57: `step_ports` gives both steps, and the parser's part of it does not depend on the encoder's ports. -/
theorem encoderRunsBesideParser : Obligations.EncoderRunsBesideParser := by
  intro s rst inValid b c0 c1 rest
  refine ⟨_, _, step_ports _ rst inValid b (some (c0, c1)) rest rfl, step_ports _ rst inValid b none rest rfl,
    parserAfter_parser_enc .., rfl, rfl, eventAfter_parser_enc .., rfl, rfl, ?_, ?_, ?_, ?_, ?_⟩
  · exact State.encErr_eq_true_iff rfl
  · exact State.encErr_eq_false_iff rfl
  · intro bytes hframe
    exact State.encFrame_of_frame (congrArg some hframe)
  · exact State.encErr_of_not_encoded rfl
  · exact State.encFrame_of_not_encoded rfl

end Sys2Proof.Machine

/-! The state and its invariants: what each byte-step does to ParserState as one equation per class, that the invariants
of R33 are kept, what is held of a partly received frame, and what the event ports show. -/

namespace Sys2Proof.Machine

open Config

/-! ### The effect of a byte, class by class (R101 to R113) -/

section Effect

variable {p : ParserState} {b : Byte}

/-- A start marker begins a frame in every state, and preempts one that is in progress (R101, R103, R104). -/
theorem ParserState.byteEffect_startMarker (p : ParserState) : p.byteEffect startMarker =
    (.cleared .readLengthHigh, if p.st.inProgress then .framePreempted else .cont) := by
  cases h : p.st <;> simp [ParserState.byteEffect, Tag.inProgress, h]

/-- GARBAGE and ABSORB (R102, R105). -/
theorem ParserState.byteEffect_waiting (h : p.st = .idle ∨ p.st = .rejected) (hb : b ≠ startMarker) :
    p.byteEffect b = (p, .cont) := by
  rcases h with h | h <;> simp only [ParserState.byteEffect, h, if_neg hb]

theorem ParserState.byteEffect_lenHi (h : p.st = .readLengthHigh) (hb : b ≠ startMarker) :
    p.byteEffect b = ({ p with rem := lengthFromHigh b, st := .readLengthLow }, .cont) := by
  simp only [ParserState.byteEffect, h, if_neg hb]

theorem ParserState.byteEffect_lenLoZero (h : p.st = .readLengthLow) (hb : b ≠ startMarker)
    (hz : p.rem.extractLsb' 8 8 = 0x00#8 ∧ b = 0x00) :
    p.byteEffect b = (.cleared .rejected, .zeroLengthFrame) := by
  simp only [ParserState.byteEffect, h, if_neg hb, if_pos hz]

theorem ParserState.byteEffect_lenLo (h : p.st = .readLengthLow) (hb : b ≠ startMarker)
    (hz : ¬(p.rem.extractLsb' 8 8 = 0x00#8 ∧ b = 0x00)) :
    p.byteEffect b = ({ p with rem := lengthWithLow p.rem b, st := .readPayload }, .cont) := by
  simp only [ParserState.byteEffect, h, if_neg hb, if_neg hz]

theorem ParserState.byteEffect_typeZero (h : p.st = .readPayload) (hv : p.ftv = false) :
    p.byteEffect 0x00 = (.cleared .rejected, .zeroFrameType) := by
  simp [ParserState.byteEffect, h, hv]

theorem ParserState.byteEffect_typeByte (h : p.st = .readPayload) (hv : p.ftv = false) (hb : b ≠ startMarker)
    (h0 : b ≠ 0x00) : p.byteEffect b = ({ p.consume b with ft := b, ftv := true }, .cont) := by
  simp only [ParserState.byteEffect, h, if_neg hb, hv, Bool.false_eq_true, if_false, if_neg h0]

theorem ParserState.byteEffect_data (h : p.st = .readPayload) (hv : p.ftv = true) (hb : b ≠ startMarker) :
    p.byteEffect b = ((p.append b).consume b, .cont) := by
  simp only [ParserState.byteEffect, h, if_neg hb, hv, if_true]

theorem ParserState.byteEffect_cksumOk (h : p.st = .readChecksum) (hb : b ≠ startMarker) (hk : b = 0xFF - p.cks) :
    p.byteEffect b = (.cleared .idle, .frameComplete p.rawFrame) := by
  simp only [ParserState.byteEffect, h, if_neg hb, if_pos hk]

theorem ParserState.byteEffect_cksumBad (h : p.st = .readChecksum) (hb : b ≠ startMarker) (hk : b ≠ 0xFF - p.cks) :
    p.byteEffect b = (.cleared .idle, .checksumFailed) := by
  simp only [ParserState.byteEffect, h, if_neg hb, if_neg hk]

/-- FrameComplete is reported in RC alone, with the frame held (R112). -/
theorem ParserState.byteEffect_frameComplete {raw : RawFrame} (h : (p.byteEffect b).2 = .frameComplete raw) :
    p.st = .readChecksum ∧ raw = p.rawFrame := by
  unfold ParserState.byteEffect at h
  split at h
  case h_6 hst =>
    split_ifs at h
    cases h
    exact ⟨hst, rfl⟩
  all_goals split_ifs at h

end Effect

/-! ### The invariants of R33 -/

/-- The high length byte leaves the low byte of the length zero (R106). -/
theorem lengthFromHigh_low (b : Byte) : (lengthFromHigh b).extractLsb' 0 8 = 0#8 := by
  apply BitVec.eq_of_toNat_eq
  rw [BitVec.extractLsb'_toNat, lengthFromHigh_toNat]
  simp

/-- The row "RP, ftv = 0" of R33. -/
theorem ParserState.lengthOnly_inv {r : Half} (hr : 1 ≤ r.toNat) : (ParserState.lengthOnly .readPayload r).Inv :=
  ⟨by simp [ParserState.lengthOnly], by simp [ParserState.lengthOnly], fun _ => ⟨hr, .inr rfl⟩,
    by simp [ParserState.lengthOnly]⟩

/-- The row RLL of R33. -/
theorem ParserState.lengthOnly_low_inv {r : Half} (hr : r.extractLsb' 0 8 = 0#8) :
    (ParserState.lengthOnly .readLengthLow r).Inv :=
  ⟨by simp [ParserState.lengthOnly], fun _ => ⟨hr, rfl⟩, by simp [ParserState.lengthOnly],
    by simp [ParserState.lengthOnly]⟩

/-- A length that is not zero counts at least one byte (R107, R108). -/
theorem lengthWithLow_pos {r : Half} {b : Byte} (hr : r.extractLsb' 0 8 = 0#8)
    (hz : ¬(r.extractLsb' 8 8 = 0x00#8 ∧ b = 0x00)) : 1 ≤ (lengthWithLow r b).toNat := by
  rw [lengthHighZero_iff_zero r hr, BitVec.toNat_eq] at hz
  change ¬(r.toNat = 0 ∧ b.toNat = 0) at hz
  rw [lengthWithLow_toNat r b hr]
  omega

/-- A presented byte keeps the invariants: the start marker in every state, any other byte state by state. -/
theorem ParserState.Inv.byteEffect {p : ParserState} (h : p.Inv) (b : Byte) : (p.byteEffect b).1.Inv := by
  have ⟨hcleared, hlow, hpayload, hchecksum⟩ := h
  by_cases hb : b = startMarker
  · rw [hb, ParserState.byteEffect_startMarker]
    exact ParserState.cleared_inv (.inr (.inl rfl))
  cases hst : p.st with
  | idle => rwa [ParserState.byteEffect_waiting (.inl hst) hb]
  | rejected => rwa [ParserState.byteEffect_waiting (.inr hst) hb]
  | readLengthHigh =>
    rw [ParserState.byteEffect_lenHi hst hb, hcleared (.inr (.inl hst))]
    exact ParserState.lengthOnly_low_inv (lengthFromHigh_low b)
  | readLengthLow =>
    obtain ⟨hr, hp⟩ := hlow hst
    by_cases hz : p.rem.extractLsb' 8 8 = 0x00#8 ∧ b = 0x00
    · rw [ParserState.byteEffect_lenLoZero hst hb hz]
      exact ParserState.cleared_inv (.inr (.inr rfl))
    · rw [ParserState.byteEffect_lenLo hst hb hz, hp]
      exact ParserState.lengthOnly_inv (lengthWithLow_pos hr hz)
  | readPayload =>
    obtain ⟨hr, hfilled | hp⟩ := hpayload hst
    · have ⟨hftv, _⟩ := hfilled
      rw [ParserState.byteEffect_data hst hftv hb]
      exact (hfilled.data hr hb).inv rfl
    · have hftv : p.ftv = false := congrArg ParserState.ftv hp
      by_cases h0 : b = 0x00
      · rw [h0, ParserState.byteEffect_typeZero hst hftv]
        exact ParserState.cleared_inv (.inr (.inr rfl))
      · rw [ParserState.byteEffect_typeByte hst hftv hb h0]
        exact (ParserState.typed_filled hp hr h0 hb).inv rfl
  | readChecksum =>
    by_cases hk : b = 0xFF - p.cks
    · rw [ParserState.byteEffect_cksumOk hst hb hk]
      exact ParserState.cleared_inv (.inl rfl)
    · rw [ParserState.byteEffect_cksumBad hst hb hk]
      exact ParserState.cleared_inv (.inl rfl)

theorem ParserState.reset_inv : ParserState.reset.Inv := ParserState.cleared_inv (.inl rfl)

/-- Every stimulus keeps the invariants. -/
theorem parserAfter_inv {p : ParserState} (h : p.Inv) (x : Stimulus) : (parserAfter p x).Inv := by
  cases x with
  | parser rst inValid b enc =>
    cases rst with
    | true => exact ParserState.reset_inv
    | false =>
      cases inValid with
      | true => exact h.byteEffect b
      | false => exact h
  | encoder c0 c1 => exact h
  | frame t payload => exact h
  | atFrame c0 c1 k => exact h
  | rawFrame raw => exact h

/-- Settles O3: the inversion of a step reduces it to `parserAfter_inv`, whose one case that changes the frame in
progress is the presented byte. -/
theorem stepKeepsInvariants : Obligations.StepKeepsInvariants := by
  intro s t hs hstep
  obtain ⟨-, rfl⟩ | ⟨x, rest, -, hparser, -⟩ := step_next_cases hstep
  · exact hs
  · rw [hparser]
    exact parserAfter_inv hs x

/-- Settles O2: the reset state is the cleared Idle state. -/
theorem resetMeetsInvariants : Obligations.ResetMeetsInvariants := ParserState.reset_inv

/-- Settles O1: field by field, and `exec_reset` for the command. -/
theorem resetStateValues : Obligations.ResetStateValues :=
  ⟨rfl, rfl, rfl, rfl, rfl, rfl, Memory.read_nil, rfl, fun s => ⟨_, exec_reset s, rfl, rfl⟩⟩

/-! ### The event ports (R12, R82, D26) -/

section Ports

variable {s : State} {raw : RawFrame}

/-- The frame ports show the RawFrame of FrameComplete. -/
theorem State.frame_ports_some (h : s.event = some (.frameComplete raw)) :
    s.evFrameType = some raw.frameType ∧ s.evPayloadLen = some (BitVec.ofNat 16 raw.payload.length) ∧
      ∀ i, s.evPayload i = raw.payload[i]? := by
  have hframe : s.evFrame = some raw := by rw [State.evFrame, show s.out.event = _ from h]
  simp [State.evFrameType, State.evPayloadLen, State.evPayload, hframe]

/-- Without FrameComplete the frame ports have no value. -/
theorem State.frame_ports_none (h : ∀ raw, s.event ≠ some (.frameComplete raw)) :
    s.evFrameType = none ∧ s.evPayloadLen = none ∧ ∀ i, s.evPayload i = none := by
  have hframe : s.evFrame = none := by
    unfold State.evFrame
    split
    · next raw hraw => exact absurd hraw (h raw)
    · rfl
  simp [State.evFrameType, State.evPayloadLen, State.evPayload, hframe]

end Ports

/-- The payload held of a frame leaves room for the frame type in the 16-bit length (R33). -/
theorem ParserState.Filled.payload_length_lt {p : ParserState} (h : p.Filled) : p.rawFrame.payload.length < 65535 := by
  obtain ⟨hv, -, -, -, -, -, hl⟩ := h
  simp only [ParserState.frameLength, ParserState.frameData, hv, if_true, List.length_cons] at hl
  rw [ParserState.rawFrame_payload]
  omega

/-- The length on `ev_payload_len` is exact where the invariants hold. -/
theorem payload_length_exact {p : ParserState} {b : Byte} {raw : RawFrame} (hp : p.Inv)
    (h : (p.byteEffect b).2 = .frameComplete raw) :
    (BitVec.ofNat 16 raw.payload.length).toNat = raw.payload.length := by
  obtain ⟨hst, rfl⟩ := ParserState.byteEffect_frameComplete h
  obtain ⟨-, -, -, hchecksum⟩ := hp
  have hlen := (hchecksum hst).2.payload_length_lt
  rw [BitVec.toNat_ofNat, Nat.mod_eq_of_lt (by omega)]

/-- Only a byte presented without reset has an event (R119, R120). -/
theorem eventAfter_eq_none {p : ParserState} {x : Stimulus} (h : ∀ b enc, x ≠ .parser false true b enc) :
    eventAfter p x = none := by
  cases x with
  | parser rst inValid b enc =>
    cases rst with
    | true => rfl
    | false =>
      cases inValid with
      | true => exact absurd rfl (h b enc)
      | false => rfl
  | encoder c0 c1 => rfl
  | frame t payload => rfl
  | atFrame c0 c1 k => rfl
  | rawFrame raw => rfl

/-- A presented byte has the event of its effect (R9). -/
theorem step_byte_event {s : State} {b : Byte} {enc : Option (Byte × Byte)} {rest : List Stimulus}
    (h : s.inputs = .parser false true b enc :: rest) :
    ∃ t, step s = .next t ∧ t.event = some (s.parser.byteEffect b).2 := ⟨_, step_byte_eq s b enc rest h, rfl⟩

theorem step_event_eq_none {s t : State} (hstep : step s = .next t)
    (h : ∀ b enc rest, s.inputs ≠ .parser false true b enc :: rest) : t.event = none := by
  obtain ⟨-, rfl⟩ | ⟨x, rest, hinputs, -, hevent⟩ := step_next_cases hstep
  · rfl
  · rw [hevent]
    exact eventAfter_eq_none fun b enc hx => h b enc rest (hx ▸ hinputs)

/-- Settles O9: the codes by cases, the ports of a byte-step from `step_byte_event`, the others from
`step_event_eq_none`. -/
theorem codesOfTagsAndEvents : Obligations.CodesOfTagsAndEvents := by
  refine ⟨fun s => ?_, fun _ => rfl, rfl, rfl, rfl, rfl, rfl, fun s b enc rest hinputs => ?_, fun s t hstep h => ?_⟩
  · cases hst : s.parser.st <;> simp [State.stOut, Tag.code, hst]
  · obtain ⟨t, hstep, hevent⟩ := step_byte_event hinputs
    refine ⟨t, _, hstep, hevent, by rw [State.ev, hevent]; rfl, fun raw he => ?_, fun he => ?_⟩
    · rw [he] at hevent
      obtain ⟨htype, hlen, hbytes⟩ := State.frame_ports_some hevent
      exact ⟨htype, hlen, hbytes, fun hp => payload_length_exact hp he⟩
    · exact State.frame_ports_none fun raw hraw => he raw (Option.some_inj.mp (hevent.symm.trans hraw))
  · have hnone := step_event_eq_none hstep h
    exact ⟨by rw [State.ev, hnone]; rfl, State.frame_ports_none fun raw hraw => by simp [hnone] at hraw⟩

/-! ### Idle and Rejected (R37) -/

/-- Settles O46: any other byte leaves both states with Continue, and a start marker takes both to the same state
with Continue. -/
theorem idleAndRejectedAreEquivalent : Obligations.IdleAndRejectedAreEquivalent := by
  intro bs
  change (feedAll (.cleared .idle) bs).2 = (feedAll (.cleared .rejected) bs).2
  induction bs with
  | nil => rfl
  | cons b bs ih =>
    simp only [feedAll_cons, feed_eq]
    by_cases hb : b = startMarker
    · rw [hb]
      rfl
    · rw [ParserState.byteEffect_waiting (.inl rfl) hb, ParserState.byteEffect_waiting (.inr rfl) hb, ih]

/-! ### A partly received frame (R33, R57, R143) -/

/-- Feeding a sequence in two parts (R116). -/
theorem feedAll_append (p : ParserState) (as bs : List Byte) : feedAll p (as ++ bs) =
    ((feedAll (feedAll p as).1 bs).1, (feedAll p as).2 ++ (feedAll (feedAll p as).1 bs).2) := by
  induction as generalizing p with
  | nil => rfl
  | cons a as ih => simp only [List.cons_append, feedAll_cons, ih]

/-- The parser holds the first bytes `data` of the frame data of a frame of length `L`: the rows RP and RC of R33. -/
structure ParserState.Holds (p : ParserState) (L : Nat) (data : List Byte) : Prop where
  st : p.st = if data.length = L then .readChecksum else .readPayload
  rem : p.rem.toNat + data.length = L
  cks : p.cks = sumBytes data
  ftv : p.ftv = true ↔ data ≠ []
  ft : p.ft = data.headD 0
  wf : p.buf.wf
  bytes : p.buf.bytes = data.tail

section Holds

variable {p : ParserState} {L : Nat} {data : List Byte} {b : Byte}

/-- Before the last byte the parser is in RP. -/
theorem ParserState.Holds.st_of_lt (h : p.Holds L data) (hlt : data.length < L) : p.st = .readPayload := by
  rw [h.st, if_neg hlt.ne]

/-- A consumed byte is counted, and the last one leads to RC. -/
theorem ParserState.Holds.consume (h : p.Holds L data) (hlt : data.length < L) (b : Byte) :
    (p.consume b).st = (if (data ++ [b]).length = L then .readChecksum else .readPayload) ∧
      (p.consume b).rem.toNat + (data ++ [b]).length = L := by
  have hrem := h.rem
  have hsub := rem_sub_one_toNat (r := p.rem) (by omega)
  have hzero : p.rem - 1 = 0 ↔ data.length + 1 = L := by
    rw [← BitVec.toNat_inj, hsub]
    change p.rem.toNat - 1 = 0 ↔ _
    omega
  simp only [List.length_append, List.length_singleton, ParserState.consume_rem, hsub]
  exact ⟨by simp only [ParserState.consume, hzero], by omega⟩

/-- The frame type is the first byte held (R109). -/
theorem ParserState.Holds.typeByte (h : p.Holds L []) (hlt : 0 < L) (b : Byte) :
    ({ p.consume b with ft := b, ftv := true } : ParserState).Holds L [b] := by
  obtain ⟨hst, hrem⟩ := h.consume hlt b
  refine ⟨hst, hrem, ?_, by simp, rfl, h.wf, h.bytes⟩
  change accumulate p.cks b = sumBytes [b]
  rw [h.cks]
  rfl

/-- A payload byte is held after those before it (R111). -/
theorem ParserState.Holds.payloadByte (h : p.Holds L data) (hlt : data.length < L) (hne : data ≠ []) (b : Byte) :
    ((p.append b).consume b).Holds L (data ++ [b]) := by
  obtain ⟨hst, hrem⟩ := h.consume hlt b
  refine ⟨hst, hrem, ?_, ?_, ?_, h.wf.append b, ?_⟩
  · rw [sumBytes_concat, ← h.cks]
    rfl
  · simpa [hne] using h.ftv
  · simpa [List.headD_eq_head?_getD, List.head?_append_of_ne_nil _ hne] using h.ft
  · rw [List.tail_append_of_ne_nil hne, ← h.bytes]
    exact h.wf.bytes_append b

/-- One more byte of the frame data is held, with Continue. -/
theorem ParserState.Holds.byteEffect (h : p.Holds L data) (hlt : data.length < L) (hb : b ≠ startMarker)
    (h0 : data = [] → b ≠ 0x00) : (p.byteEffect b).1.Holds L (data ++ [b]) ∧ (p.byteEffect b).2 = .cont := by
  have hst := h.st_of_lt hlt
  cases data with
  | nil =>
    have hftv : p.ftv = false := by simpa using h.ftv
    rw [ParserState.byteEffect_typeByte hst hftv hb (h0 rfl)]
    exact ⟨h.typeByte hlt b, rfl⟩
  | cons d ds =>
    rw [ParserState.byteEffect_data hst (h.ftv.mpr (List.cons_ne_nil d ds)) hb]
    exact ⟨h.payloadByte hlt (List.cons_ne_nil d ds) b, rfl⟩

/-- Any further bytes of the frame data are held, each with Continue. -/
theorem ParserState.Holds.feedAll {rest : List Byte} (h : p.Holds L data) (hlen : (data ++ rest).length ≤ L)
    (hb : ∀ b ∈ rest, b ≠ startMarker) (h0 : (data ++ rest).head? ≠ some 0x00) :
    (feedAll p rest).1.Holds L (data ++ rest) ∧ (feedAll p rest).2 = List.replicate rest.length .cont := by
  induction rest generalizing p data with
  | nil => simpa using h
  | cons b rest ih =>
    have hlt : data.length < L := by simp only [List.length_append, List.length_cons] at hlen; omega
    obtain ⟨hnext, hevent⟩ := h.byteEffect hlt (hb b List.mem_cons_self) (by rintro rfl rfl; exact h0 rfl)
    rw [List.append_cons] at hlen h0 ⊢
    obtain ⟨hheld, hevents⟩ := ih hnext hlen (fun x hx => hb x (List.mem_cons_of_mem b hx)) h0
    rw [feedAll_cons, feed_eq]
    exact ⟨hheld, by rw [hevents, hevent]; rfl⟩

end Holds

/-- With the length received, no frame data is held yet. -/
theorem ParserState.lengthOnly_holds {r : Half} (hr : 1 ≤ r.toNat) :
    (ParserState.lengthOnly .readPayload r).Holds r.toNat [] :=
  have hst : ([] : List Byte).length ≠ r.toNat := (Nat.pos_iff_ne_zero.mp hr).symm
  ⟨(if_neg hst).symm, rfl, rfl, by simp [ParserState.lengthOnly], rfl, Memory.wf_nil, rfl⟩

/-- The length field of the two length bytes, the high byte first (R72). -/
theorem lengthWithLow_lengthFromHigh_toNat (hi lo : Byte) :
    (lengthWithLow (lengthFromHigh hi) lo).toNat = 256 * hi.toNat + lo.toNat := by
  rw [lengthWithLow_toNat _ _ (lengthFromHigh_low hi), lengthFromHigh_toNat]

theorem feed_cleared_lengthHigh {b : Byte} (hb : b ≠ startMarker) :
    feed (.cleared .readLengthHigh) b = (.lengthOnly .readLengthLow (lengthFromHigh b), .cont) := by
  rw [feed_eq, ParserState.byteEffect_lenHi rfl hb]
  rfl

theorem feed_lengthOnly_low {r : Half} {b : Byte} (hb : b ≠ startMarker)
    (hz : ¬(r.extractLsb' 8 8 = 0x00#8 ∧ b = 0x00)) :
    feed (.lengthOnly .readLengthLow r) b = (.lengthOnly .readPayload (lengthWithLow r b), .cont) := by
  rw [feed_eq, ParserState.byteEffect_lenLo (p := .lengthOnly .readLengthLow r) rfl hb hz]
  rfl

/-- With no frame in progress, a start marker and the two bytes of a length that is not zero are received with
Continue, and the length is all that is held. -/
theorem feedAll_header {p : ParserState} {hi lo : Byte} (hp : p.st.inProgress = false) (hhi : hi ≠ startMarker)
    (hlo : lo ≠ startMarker) (hL : 1 ≤ 256 * hi.toNat + lo.toNat) :
    feedAll p [startMarker, hi, lo] =
      (.lengthOnly .readPayload (lengthWithLow (lengthFromHigh hi) lo), [.cont, .cont, .cont]) := by
  have hstart : feed p startMarker = (.cleared .readLengthHigh, .cont) := by
    rw [feed_eq, ParserState.byteEffect_startMarker, hp]
    rfl
  have hz : ¬((lengthFromHigh hi).extractLsb' 8 8 = 0x00#8 ∧ lo = 0x00) := by
    rw [lengthHighZero_iff_zero _ (lengthFromHigh_low hi), lengthFromHigh_toNat]
    rintro ⟨h, rfl⟩
    rw [h] at hL
    exact absurd hL (by decide)
  simp only [feedAll_cons, feedAll_nil, hstart, feed_cleared_lengthHigh hhi, feed_lengthOnly_low hlo hz]

/-- Settles O47: after the header nothing of the frame data is held, and `ParserState.Holds.feedAll` adds the bytes. -/
theorem partialFrameIsHeld : Obligations.PartialFrameIsHeld := by
  intro hi lo data hhi hlo hL hlen hdata h0
  have hlength := lengthWithLow_lengthFromHigh_toNat hi lo
  have hheader := ParserState.lengthOnly_holds (hL.trans_eq hlength.symm)
  rw [hlength] at hheader
  obtain ⟨⟨hst, hrem, hcks, hftv, hft, hwf, hbytes⟩, hevents⟩ := hheader.feedAll hlen hdata h0
  have hfed := feedAll_append .reset [startMarker, hi, lo] data
  rw [feedAll_header rfl hhi hlo hL] at hfed
  rw [show feedAll .reset (0x7E :: hi :: lo :: data) = _ from hfed]
  refine ⟨hst, Nat.eq_sub_of_add_eq hrem, hcks, hftv, hft, hwf, hbytes, ?_, ?_⟩
  · rw [ParserState.blen, ← Memory.length_bytes, hbytes]
    exact List.length_tail
  · simp only [hevents]
    rfl

end Sys2Proof.Machine

/-! The payload buffer under exec: what the storing form writes (R52), what the clearing forms and the others leave of
the buffer (R25, R26), and that the assembled frame is the buffer read in index order (R53). -/

namespace Sys2Proof.Machine

/-! ### The append (R52) -/

section Append

variable {p : ParserState}

theorem ParserState.append_blen (h : p.buf.wf) (b : Byte) : (p.append b).blen = p.blen + 1 := by
  have hbuf : (p.append b).buf = p.buf ++ [(p.blen, b)] := h.write_length b
  rw [ParserState.blen, hbuf, List.length_append]
  rfl

/-- The append keeps the canonical form and adds one byte at the end. -/
theorem ParserState.append_canonical (h : p.buf.wf) (b : Byte) :
    (p.append b).buf.wf ∧ (p.append b).blen = p.blen + 1 ∧ (p.append b).buf.bytes = p.buf.bytes ++ [b] :=
  ⟨h.append b, ParserState.append_blen h b, h.bytes_append b⟩

end Append

/-- Settles O21: DATA is the append, a write at `blen`, and the consumption of the byte does not touch the buffer. -/
theorem dataStoresAtBlenOnly : Obligations.DataStoresAtBlenOnly := by
  rintro s t b a h rfl
  rw [exec_data] at h
  cases h
  refine ⟨?_, fun a' ha' => ?_, fun hwf => ParserState.append_canonical hwf b, rfl, rfl, rfl⟩
  · exact Memory.read_write_same s.parser.buf s.parser.blen b
  · exact Memory.read_write_other s.parser.buf b ha'

/-! ### The forms that store nothing (R25, R26) -/

section Frame

variable {p q : ParserState}

theorem ParserState.reads_of_buf_nil (h : p.buf = []) : p.blen = 0 ∧ ∀ a, p.buf.read a = none := by
  rw [ParserState.blen, h]
  exact ⟨rfl, Memory.read_nil⟩

theorem ParserState.reads_of_buf_eq (h : q.buf = p.buf) :
    q.blen = p.blen ∧ ∀ a, q.buf.read a = p.buf.read a := by
  rw [ParserState.blen, ParserState.blen, h]
  exact ⟨rfl, fun _ => rfl⟩

end Frame

/-- API_FRAME answers a next state only where its bytes are presented (R85). -/
theorem exec_apiFrame_next {s u : State} {t : Byte} {payload : List Byte}
    (h : exec (.apiFrame t payload) s = .next u) : u = s.present (frameBytes t payload) := by
  change execApiFrame t payload s = .next u at h
  unfold execApiFrame at h
  split_ifs at h
  cases h
  rfl

/-- Settles O22: each form's next state has the empty buffer or the buffer of the state before. -/
theorem otherFormsStoreNothing : Obligations.OtherFormsStoreNothing := by
  intro i s t h
  cases i with
  | data b => trivial
  | start | restart | preempt | lenLoZero | typeZero | cksumOk b | cksumBad b | reset =>
    cases h
    exact ParserState.reads_of_buf_nil rfl
  | garbage b | absorb b | lenHi b | lenLo b | typeByte b | noData | buildAt c0 c1 | atCommand c0 c1 k
  | atResponse payload | ioSample payload | opaqueFrame ft payload =>
    cases h
    exact ParserState.reads_of_buf_eq rfl
  | apiFrame ft payload =>
    rw [exec_apiFrame_next h]
    exact ParserState.reads_of_buf_eq rfl

/-! ### The raw frame (R53) -/

/-- Settles O25: the payload is the buffer's bytes, and in the canonical form `Memory.wf.read_eq` reads them by
index. -/
theorem rawFrameReadsBuffer : Obligations.RawFrameReadsBuffer := by
  intro p hwf
  exact ⟨rfl, p.buf.length_bytes, fun i => (hwf.read_eq i).symm⟩

end Sys2Proof.Machine

/-! Encodings: the class a decode word selects, case by case, what a wire frame and a raw frame decode to and from, and
that decoder and encoder undo one another (R70, R74, R75, R79, R83, R152). -/

namespace Sys2Proof

open Config

/-! ### The class of a decode word, case by case (R74, R75) -/

section StepClass

variable {f z k : Bool} {b : Byte}

theorem stepClass_startMarker (c : BitVec 3) (f z k : Bool) : stepClass c f z k startMarker =
    if c = 0 then .start else if c = 5 then .restart else .preempt := if_pos rfl

theorem stepClass_idle (hb : b ≠ startMarker) : stepClass 0 f z k b = .garbage b := by
  rw [stepClass, if_neg hb, if_pos rfl]

theorem stepClass_rejected (hb : b ≠ startMarker) : stepClass 5 f z k b = .absorb b := by
  rw [stepClass, if_neg hb]
  rfl

theorem stepClass_readLengthHigh (hb : b ≠ startMarker) : stepClass 1 f z k b = .lenHi b := by
  rw [stepClass, if_neg hb]
  rfl

theorem stepClass_readLengthLow_zero : stepClass 2 f true k 0x00 = .lenLoZero := rfl

theorem stepClass_readLengthLow (hb : b ≠ startMarker) (hz : ¬(z = true ∧ b = 0x00)) :
    stepClass 2 f z k b = .lenLo b := by
  rw [stepClass, if_neg hb, if_neg hz]
  rfl

theorem stepClass_type_zero : stepClass 3 false z k 0x00 = .typeZero := rfl

theorem stepClass_type (hb : b ≠ startMarker) (h0 : b ≠ 0x00) : stepClass 3 false z k b = .typeByte b := by
  rw [stepClass, if_neg hb, if_neg h0]
  rfl

theorem stepClass_data (hb : b ≠ startMarker) : stepClass 3 true z k b = .data b := by
  rw [stepClass, if_neg hb]
  rfl

theorem stepClass_checksum_valid (hb : b ≠ startMarker) : stepClass 4 f z true b = .cksumOk b := by
  rw [stepClass, if_neg hb]
  rfl

theorem stepClass_checksum_wrong (hb : b ≠ startMarker) : stepClass 4 f z false b = .cksumBad b := by
  rw [stepClass, if_neg hb]
  rfl

/-- A selected class meets its rule's operand condition. -/
theorem wellFormed_stepClass (c : BitVec 3) (f z k : Bool) (b : Byte) : WellFormed (stepClass c f z k b) := by
  by_cases hb : b = startMarker
  · rw [hb, stepClass_startMarker]
    split_ifs <;> rfl
  · rw [stepClass, if_neg hb]
    split_ifs <;> simp_all [WellFormed, Instr.wellFormed]

end StepClass

/-- A decode word of one of the six states decodes to the class of its parts. -/
theorem decode_stepWord_pack {c : BitVec 3} {f z k : Bool} {b : Byte} {i : Instr} (hc : c.toNat < 6)
    (hi : stepClass c f z k b = i) : decode (.stepWord (packStepWord c f z k b)) = .ok i := by
  rw [← hi]
  exact decodeStepWord_pack c f z k b hc

/-- What decodes has the code of one of the six states (R21, U13). -/
theorem stCodeOf_lt_of_decodeStepWord {w : BitVec 14} {i : Instr} (h : decodeStepWord w = .ok i) :
    (stCodeOf w).toNat < 6 := by
  by_contra hc
  rw [decodeStepWord, if_pos (not_lt.mp hc)] at h
  cases h

theorem decodeStepWord_wellFormed {w : BitVec 14} {i : Instr} (h : decodeStepWord w = .ok i) : WellFormed i := by
  have hclass := decodeStepWord_pack _ (ftvOf w) (lzOf w) (ckokOf w) (byteOf w) (stCodeOf_lt_of_decodeStepWord h)
  rw [pack_parts, h] at hclass
  cases hclass
  exact wellFormed_stepClass ..

/-! ### Wire frames (R70, R79) -/

theorem atShape_eq_some_iff {t c0 c1 : Byte} {p : List Byte} :
    atShape t p = some (c0, c1) ↔ t = atApiId ∧ p = [atFrameId, c0, c1] := by
  unfold atShape
  split
  · split_ifs <;> simp_all
  · next hp => exact ⟨nofun, fun h => absurd h.2 (hp _ _ _)⟩

theorem wellFormed_apiFrame_iff {t : Byte} {p : List Byte} :
    WellFormed (.apiFrame t p) ↔ p.length ≤ payloadCap ∧ atShape t p = none := by
  simp only [WellFormed, Instr.wellFormed, Bool.and_eq_true, decide_eq_true_eq, Option.isNone_iff_eq_none]

/-- The AT-command frame in the fields of a wire frame (R79). -/
theorem atFrameBytes_eq (c0 c1 k : Byte) : atFrameBytes c0 c1 k =
    startMarker :: lengthBytes [atFrameId, c0, c1].length ++ atApiId :: [atFrameId, c0, c1] ++ [k] := by
  have hlen : lengthBytes 3 = [0x00, 0x04] := by decide
  rw [List.length_cons, List.length_cons, List.length_singleton, hlen]
  rfl

/-- A frame of the AT-command shape is the AT-command frame with its checksum (R79). -/
theorem frameBytes_of_atShape {t c0 c1 : Byte} {p : List Byte} (h : atShape t p = some (c0, c1)) :
    frameBytes t p = atFrameBytes c0 c1 (compute (sumBytes (t :: p))) := by
  obtain ⟨rfl, rfl⟩ := atShape_eq_some_iff.mp h
  rw [atFrameBytes_eq, frameBytes]

theorem decodeWire_atFrameBytes (c0 c1 k : Byte) : decodeWire (atFrameBytes c0 c1 k) = .ok (.atCommand c0 c1 k) := rfl

/-- A length that two bytes hold leaves a payload of at most the capacity. -/
theorem le_payloadCap_of_toNat {n : Nat} {hi lo : Byte} (h : 256 * hi.toNat + lo.toNat = n + 1) : n ≤ payloadCap := by
  have := hi.isLt
  have := lo.isLt
  rw [payloadCap_eq]
  omega

/-- After a length that is not zero and counts them, the bytes are a payload that the length field can announce and a
checksum byte. -/
theorem announced_bytes {hi lo : Byte} {rest : List Byte} (hz : (hi ++ lo).toNat ≠ 0)
    (hl : rest.length = (hi ++ lo).toNat) : ∃ (p : List Byte) (k : Byte), rest = p ++ [k] ∧ p.length ≤ payloadCap ∧
      lengthBytes p.length = [hi, lo] := by
  have hne : rest ≠ [] := by rintro rfl; exact hz hl.symm
  obtain ⟨p, k, rfl⟩ := (List.eq_nil_or_concat' rest).resolve_left hne
  rw [List.length_append, List.length_singleton, append_toNat] at hl
  have hcap := le_payloadCap_of_toNat hl.symm
  exact ⟨p, k, rfl, hcap, lengthBytes_of_toNat hcap hl.symm⟩

/-- The inversion of the wire decoder: what decodes is an AT-command frame, or the frame of a type and a payload that
has not its shape. -/
theorem decodeWire_cases {bs : List Byte} {i : Instr} (h : decodeWire bs = .ok i) :
    (∃ c0 c1 k, i = .atCommand c0 c1 k ∧ bs = atFrameBytes c0 c1 k) ∨
      ∃ t p, i = .apiFrame t p ∧ bs = frameBytes t p ∧ p.length ≤ payloadCap ∧ atShape t p = none := by
  unfold decodeWire at h
  split at h
  case h_2 => cases h
  next s hi lo t rest =>
    split at h
    · cases h
    next hs =>
    split at h
    · cases h
    next hz =>
    split at h
    · cases h
    next hl =>
    obtain ⟨p, k, rfl, hcap, hlen⟩ := announced_bytes hz (not_not.mp hl)
    obtain ⟨hd, hk⟩ := dropLast_getLastD p k
    rw [hd, hk] at h
    have hbytes : s :: hi :: lo :: t :: (p ++ [k]) = startMarker :: lengthBytes p.length ++ t :: p ++ [k] := by
      rw [not_not.mp hs, hlen]
      rfl
    rw [hbytes]
    split at h
    · next c0 c1 hshape =>
      cases h
      obtain ⟨rfl, rfl⟩ := atShape_eq_some_iff.mp hshape
      exact .inl ⟨c0, c1, k, rfl, (atFrameBytes_eq c0 c1 k).symm⟩
    · next hshape =>
      split at h
      · next hsum =>
        cases h
        exact .inr ⟨t, p, rfl, by rw [hsum, frameBytes], hcap, hshape⟩
      · cases h

/-- What a wire frame decodes to is well-formed, and encodes to that frame. -/
theorem wellFormed_encode_of_decodeWire {bs : List Byte} {i : Instr} (h : decodeWire bs = .ok i) :
    WellFormed i ∧ encode i = .wire bs := by
  obtain ⟨c0, c1, k, rfl, rfl⟩ | ⟨t, p, rfl, rfl, hcap, hshape⟩ := decodeWire_cases h
  · exact ⟨rfl, rfl⟩
  · exact ⟨wellFormed_apiFrame_iff.mpr ⟨hcap, hshape⟩, rfl⟩

/-! ### Raw frames (R152) -/

theorem wellFormed_opaqueFrame_iff {t : Byte} {p : List Byte} :
    WellFormed (.opaqueFrame t p) ↔ t ≠ atResponseType ∧ t ≠ ioSampleType := by
  simp only [WellFormed, Instr.wellFormed, Bool.and_eq_true, bne_iff_ne]

/-- What a raw frame decodes to is well-formed, and encodes to that raw frame. -/
theorem wellFormed_encode_of_decodeFrameData {bs : List Byte} {i : Instr} (h : decodeFrameData bs = .ok i) :
    WellFormed i ∧ encode i = .frameData bs := by
  cases bs with
  | nil => cases h
  | cons t p =>
    rw [decodeFrameData] at h
    split_ifs at h with hat hio
    · cases h
      exact ⟨rfl, by rw [hat]; rfl⟩
    · cases h
      exact ⟨rfl, by rw [hio]; rfl⟩
    · cases h
      exact ⟨wellFormed_opaqueFrame_iff.mpr ⟨hat, hio⟩, rfl⟩

/-! ### Decoder and encoder -/

/-- Settles O7: a step word selects its class by `decodeStepWord_pack`, a wire frame is read back by
`decodeWire_frameBytes`, and the other codes carry their operands as they are. -/
theorem decodeEncodeRoundTrip : Obligations.DecodeEncodeRoundTrip := by
  intro i hi
  cases i with
  | start | restart | preempt => exact decode_stepWord_pack (by decide) (stepClass_startMarker ..)
  | garbage b => exact decode_stepWord_pack (by decide) (stepClass_idle (bne_iff_ne.mp hi))
  | absorb b => exact decode_stepWord_pack (by decide) (stepClass_rejected (bne_iff_ne.mp hi))
  | lenHi b => exact decode_stepWord_pack (by decide) (stepClass_readLengthHigh (bne_iff_ne.mp hi))
  | lenLoZero => exact decode_stepWord_pack (by decide) stepClass_readLengthLow_zero
  | lenLo b => exact decode_stepWord_pack (by decide) (stepClass_readLengthLow (bne_iff_ne.mp hi) nofun)
  | typeZero => exact decode_stepWord_pack (by decide) stepClass_type_zero
  | typeByte b =>
    obtain ⟨hb, h0⟩ := (Bool.and_eq_true _ _).mp hi
    exact decode_stepWord_pack (by decide) (stepClass_type (bne_iff_ne.mp hb) (bne_iff_ne.mp h0))
  | data b => exact decode_stepWord_pack (by decide) (stepClass_data (bne_iff_ne.mp hi))
  | cksumOk b => exact decode_stepWord_pack (by decide) (stepClass_checksum_valid (bne_iff_ne.mp hi))
  | cksumBad b => exact decode_stepWord_pack (by decide) (stepClass_checksum_wrong (bne_iff_ne.mp hi))
  | reset | noData | buildAt c0 c1 => rfl
  | apiFrame t p =>
    obtain ⟨hcap, hshape⟩ := wellFormed_apiFrame_iff.mp hi
    have hdecode := decodeWire_frameBytes t p hcap
    rwa [hshape] at hdecode
  | atCommand c0 c1 k => exact decodeWire_atFrameBytes c0 c1 k
  | atResponse p | ioSample p => rfl
  | opaqueFrame t p =>
    obtain ⟨hat, hio⟩ := wellFormed_opaqueFrame_iff.mp hi
    exact (if_neg hat).trans (if_neg hio)

/-- Settles O8: format by format; a wire frame and a raw frame have no free bits, so their decoders are inverted
exactly. -/
theorem decodeYieldsWellFormed : Obligations.DecodeYieldsWellFormed := by
  intro c i h
  cases c with
  | stepWord w => exact ⟨decodeStepWord_wellFormed h, nofun, nofun, nofun⟩
  | ports rst inValid =>
    refine ⟨?_, nofun, nofun, nofun⟩
    cases rst <;> cases inValid <;> cases h <;> rfl
  | encoderPorts c0 c1 =>
    cases h
    exact ⟨rfl, nofun, nofun, by rintro _ _ ⟨⟩; rfl⟩
  | wire bs =>
    obtain ⟨hwf, hencode⟩ := wellFormed_encode_of_decodeWire h
    exact ⟨hwf, by rintro _ ⟨⟩; exact hencode, nofun, nofun⟩
  | frameData bs =>
    obtain ⟨hwf, hencode⟩ := wellFormed_encode_of_decodeFrameData h
    exact ⟨hwf, nofun, by rintro _ ⟨⟩; exact hencode, nofun⟩

/-- Settles O5: each word is closed, and the decoder computes. -/
theorem tableWordsDecode : Obligations.TableWordsDecode := by
  unfold Obligations.TableWordsDecode
  decide

end Sys2Proof

/-! What a step fetches: the class that a byte selects in each state (R74, R75), the step as exec of what its stimulus
decodes to (R83), the two frame formats as presented bytes (R70, R79, R85), and table words put in place. -/

namespace Sys2Proof.Machine

open Config

/-! ### The class of a byte, state by state (R74, R75) -/

/-- Of every byte the third column of R74 selects some class. -/
theorem exists_selectedWhen (p : ParserState) (b : Byte) : ∃ i, SelectedWhen i p b := by
  by_cases hb : b = startMarker
  · cases hst : p.st with
    | idle => exact ⟨.start, hst, hb⟩
    | rejected => exact ⟨.restart, hst, hb⟩
    | readLengthHigh | readLengthLow | readPayload | readChecksum =>
      exact ⟨.preempt, by rw [hst]; nofun, by rw [hst]; nofun, hb⟩
  cases hst : p.st with
  | idle => exact ⟨.garbage b, hst, hb, rfl⟩
  | rejected => exact ⟨.absorb b, hst, hb, rfl⟩
  | readLengthHigh => exact ⟨.lenHi b, hst, hb, rfl⟩
  | readLengthLow =>
    by_cases hz : p.rem.extractLsb' 8 8 = 0x00#8 ∧ b = 0x00
    · exact ⟨.lenLoZero, hst, hz⟩
    · exact ⟨.lenLo b, hst, hb, hz, rfl⟩
  | readPayload =>
    cases hv : p.ftv with
    | true => exact ⟨.data b, hst, hv, hb, rfl⟩
    | false =>
      by_cases h0 : b = 0x00
      · exact ⟨.typeZero, hst, hv, h0⟩
      · exact ⟨.typeByte b, hst, hv, h0, hb, rfl⟩
  | readChecksum =>
    by_cases hk : b = 0xFF - p.cks
    · exact ⟨.cksumOk b, hst, hb, hk, rfl⟩
    · exact ⟨.cksumBad b, hst, hb, hk, rfl⟩

/-- The class that the third column of R74 selects is the class of the decode word. -/
theorem classOf_eq_of_selectedWhen {i : Instr} {p : ParserState} {b : Byte} (h : SelectedWhen i p b) :
    p.classOf b = i := by
  unfold ParserState.classOf
  cases i with
  | start =>
    obtain ⟨hst, rfl⟩ := h
    rw [hst, stepClass_startMarker]
    rfl
  | restart =>
    obtain ⟨hst, rfl⟩ := h
    rw [hst, stepClass_startMarker]
    rfl
  | preempt =>
    obtain ⟨hidle, hrejected, rfl⟩ := h
    rw [stepClass_startMarker]
    cases hst : p.st with
    | idle => exact absurd hst hidle
    | rejected => exact absurd hst hrejected
    | readLengthHigh | readLengthLow | readPayload | readChecksum => rfl
  | garbage x =>
    obtain ⟨hst, hb, rfl⟩ := h
    rw [hst]
    exact stepClass_idle hb
  | absorb x =>
    obtain ⟨hst, hb, rfl⟩ := h
    rw [hst]
    exact stepClass_rejected hb
  | lenHi x =>
    obtain ⟨hst, hb, rfl⟩ := h
    rw [hst]
    exact stepClass_readLengthHigh hb
  | lenLoZero =>
    obtain ⟨hst, hz, rfl⟩ := h
    rw [hst, p.lengthHighZero_iff.mpr hz]
    exact stepClass_readLengthLow_zero
  | lenLo x =>
    obtain ⟨hst, hb, hz, rfl⟩ := h
    rw [hst]
    exact stepClass_readLengthLow hb (by rwa [p.lengthHighZero_iff])
  | typeZero =>
    obtain ⟨hst, hv, rfl⟩ := h
    rw [hst, hv]
    exact stepClass_type_zero
  | typeByte x =>
    obtain ⟨hst, hv, h0, hb, rfl⟩ := h
    rw [hst, hv]
    exact stepClass_type hb h0
  | data x =>
    obtain ⟨hst, hv, hb, rfl⟩ := h
    rw [hst, hv]
    exact stepClass_data hb
  | cksumOk x =>
    obtain ⟨hst, hb, hk, rfl⟩ := h
    rw [hst, (p.checksumValid_iff x).mpr hk]
    exact stepClass_checksum_valid hb
  | cksumBad x =>
    obtain ⟨hst, hb, hk, rfl⟩ := h
    rw [hst, Bool.eq_false_iff.mpr (mt (p.checksumValid_iff x).mp hk)]
    exact stepClass_checksum_wrong hb
  | reset | noData | buildAt c0 c1 | apiFrame t q | atCommand c0 c1 k | atResponse q | ioSample q
  | opaqueFrame t q => exact h.elim

/-- Settles O6: the layout from the parts of a packed word; the selected class is unique, so it is the one of
`exists_selectedWhen`. -/
theorem decodeWordSelectsClass : Obligations.DecodeWordSelectsClass := by
  intro p b
  refine ⟨⟨stCodeOf_pack .., ftvOf_pack .., ?_, ?_, byteOf_pack ..⟩, fun i => ?_, p.classOf b, decode_decodeWord p b⟩
  · rw [ParserState.decodeWord, lzOf_pack, p.lengthHighZero_iff]
  · rw [ParserState.decodeWord, ckokOf_pack, p.checksumValid_iff]
  · rw [p.runs_iff]
    refine ⟨?_, classOf_eq_of_selectedWhen⟩
    rintro rfl
    obtain ⟨i, hi⟩ := exists_selectedWhen p b
    rwa [classOf_eq_of_selectedWhen hi]

/-! ### The step (R83) -/

/-- A step is exec of what its stimulus decodes to. -/
theorem step_of_decode {s : State} {x : Stimulus} {rest : List Stimulus} {i : Instr} (hinputs : s.inputs = x :: rest)
    (hdecode : decode (x.code s.parser) = .ok i) : step s = exec i { s with inputs := rest, out := x.outputs } := by
  simp only [step, hinputs, hdecode]

/-- Settles O4: `step_of_decode`, and the output ports by the kinds of stimulus. -/
theorem stepRunsDecodedInstruction : Obligations.StepRunsDecodedInstruction := by
  refine ⟨fun s x rest i => step_of_decode, step_nil, fun _ _ _ _ => rfl, fun x hx => ?_⟩
  cases x with
  | parser rst inValid b enc => exact absurd rfl (hx rst inValid b enc)
  | encoder c0 c1 | frame t p | atFrame c0 c1 k | rawFrame raw => rfl

/-! ### Frames as input (R70, R79, R85) -/

/-- The checksum byte written out over a type and a payload (R140, R143). -/
theorem compute_sumBytes_cons (t : Byte) (p : List Byte) :
    compute (sumBytes (t :: p)) = 0xFF - p.foldl (· + ·) t := by
  rw [compute_def, sumBytes_cons, ← foldl_accumulate]
  rfl

/-- Settles O29: the two length bytes are those that carry the length, and beyond the capacity there are none. -/
theorem apiFramePresentsWireBytes : Obligations.ApiFramePresentsWireBytes := by
  refine ⟨fun s t p hi lo hcap hlen => ?_, fun s t p hcap => if_neg (not_le.mpr hcap)⟩
  rw [exec_apiFrame s t p hcap, frameBytes, lengthBytes_of_toNat hcap hlen, compute_sumBytes_cons]
  rfl

/-- Settles O30: the meaning of AT_COMMAND presents these bytes. -/
theorem atCommandPresentsWireBytes : Obligations.AtCommandPresentsWireBytes := exec_atCommand

/-- The step of a frame stimulus presents the frame's bytes, whichever of the two frame rows it decodes to (L9). -/
theorem step_frame {s : State} {t : Byte} {p : List Byte} {rest : List Stimulus} (hinputs : s.inputs = .frame t p :: rest)
    (hcap : p.length ≤ payloadCap) : step s = .next
      { parser := s.parser, inputs := (frameBytes t p).map Stimulus.byte ++ rest, out := .quiet } := by
  have hdecode := decodeWire_frameBytes t p hcap
  cases hshape : atShape t p with
  | none =>
    rw [hshape] at hdecode
    rw [step_of_decode hinputs hdecode, exec_apiFrame _ t p hcap]
    rfl
  | some c =>
    obtain ⟨c0, c1⟩ := c
    rw [hshape] at hdecode
    rw [step_of_decode hinputs hdecode, exec_atCommand, frameBytes_of_atShape hshape]
    rfl

/-! ### Table words in place (logs 11 and 12) -/

/-- Each of the six state codes is the code of a tag (R21). -/
theorem Tag.exists_code {c : BitVec 3} (h : c.toNat < 6) : ∃ t : Tag, t.code = c := by
  have hcases : c = 0 ∨ c = 1 ∨ c = 2 ∨ c = 3 ∨ c = 4 ∨ c = 5 := by
    revert c
    decide
  obtain rfl | rfl | rfl | rfl | rfl | rfl := hcases
  exacts [⟨.idle, rfl⟩, ⟨.readLengthHigh, rfl⟩, ⟨.readLengthLow, rfl⟩, ⟨.readPayload, rfl⟩, ⟨.readChecksum, rfl⟩,
    ⟨.rejected, rfl⟩]

/-- The length put in place has the high byte that `lz` asks for. -/
theorem contextRem_highZero (tag : Tag) (lz : Bool) : ((contextRem tag lz).extractLsb' 8 8 == 0x00#8) = lz := by
  cases tag <;> cases lz <;> rfl

/-- The sum put in place makes the byte the valid checksum exactly where `ckok` says so. -/
theorem validate_contextCks (ckok : Bool) (b : Byte) :
    validate (if ckok then compute b else compute b + 1) b = ckok := by
  cases ckok with
  | true =>
    rw [if_pos rfl, validate_iff]
    simp only [compute_def]
    bv_omega
  | false =>
    rw [if_neg Bool.false_ne_true, validate_eq_false_iff]
    simp only [compute_def]
    bv_omega

/-- In the context put in place the byte of a decode word has that decode word. -/
theorem ParserState.inContext_decodeWord (p : ParserState) {w : BitVec 14} (h : (stCodeOf w).toNat < 6) :
    ∃ q, p.inContext w = some q ∧ q.decodeWord (byteOf w) = w ∧ q.buf = p.buf ∧ q.ft = p.ft := by
  obtain ⟨tag, htag⟩ := Tag.exists_code h
  have hcode : Tag.ofCode (stCodeOf w) = some tag := by rw [← htag, Tag.ofCode_code]
  refine ⟨_, congrArg (Option.map _) hcode, ?_, rfl, rfl⟩
  simp only [ParserState.decodeWord, ParserState.lengthHighZero, ParserState.checksumValid, contextRem_highZero,
    validate_contextCks, htag, pack_parts]

/-- A code that decodes is the code of the stimulus that `place` presents, in the parser state that it leaves; the output
ports begin quiet, and the buffer and the frame type stay. -/
theorem State.place_presents (s : State) {c : Code} {i : Instr} (h : decode c = .ok i) :
    ∃ x, (s.place c).inputs = x :: s.inputs ∧ x.code (s.place c).parser = c ∧ x.outputs = .quiet ∧
      (s.place c).parser.buf = s.parser.buf ∧ (s.place c).parser.ft = s.parser.ft := by
  cases c with
  | stepWord w =>
    obtain ⟨q, hq, hword, hbuf, hft⟩ := s.parser.inContext_decodeWord (stCodeOf_lt_of_decodeStepWord h)
    simp only [State.place, hq]
    exact ⟨_, rfl, congrArg Code.stepWord hword, rfl, hbuf, hft⟩
  | ports rst inValid =>
    refine ⟨_, rfl, ?_, rfl, rfl, rfl⟩
    cases rst with
    | true => cases inValid <;> rfl
    | false =>
      cases inValid with
      | true => cases h
      | false => rfl
  | encoderPorts c0 c1 => exact ⟨_, rfl, rfl, rfl, rfl, rfl⟩
  | wire bs =>
    have hwire : decodeWire bs = .ok i := h
    obtain ⟨c0, c1, k, rfl, rfl⟩ | ⟨t, p, rfl, rfl, -, -⟩ := decodeWire_cases hwire
    · exact ⟨_, rfl, rfl, rfl, rfl, rfl⟩
    · have hplace : s.place (.wire (frameBytes t p)) = { s with inputs := .frame t p :: s.inputs } := by
        simp only [State.place, hwire]
      rw [hplace]
      exact ⟨_, rfl, rfl, rfl, rfl, rfl⟩
  | frameData bs =>
    cases bs with
    | nil => cases h
    | cons t p => exact ⟨_, rfl, rfl, rfl, rfl, rfl⟩

/-- A table word that decodes stands for a code that decodes. -/
theorem exists_code_of_decodeTableWord {nbits w : Nat} {i : Instr} (h : decodeTableWord nbits w = some i) :
    ∃ c, codeOfTableWord nbits w = some c ∧ decode c = .ok i := by
  unfold decodeTableWord at h
  split at h
  · next c hc =>
    refine ⟨c, hc, ?_⟩
    cases hd : decode c with
    | error e =>
      rw [hd] at h
      cases h
    | ok j =>
      rw [hd] at h
      cases h
      rfl
  · cases h

/-- Settles O37: the code of the table word is what the next step fetches, by `State.place_presents`. -/
theorem placedWordIsRun : Obligations.PlacedWordIsRun := by
  intro s nbits w i h
  obtain ⟨c, hc, hdecode⟩ := exists_code_of_decodeTableWord h
  obtain ⟨x, hinputs, hcode, hout, hbuf, hft⟩ := s.place_presents hdecode
  have hplace : s.withFetchWord nbits w = s.place c := by rw [State.withFetchWord, hc]
  rw [hplace, step_of_decode hinputs (by rw [hcode, hdecode]), hout]
  exact ⟨rfl, hbuf, hft⟩

end Sys2Proof.Machine

/-! Frames in streams: a receivable frame is received and reported, byte by byte and as one stimulus, and only the bytes
of a receivable frame lead to a FrameComplete (R70, R77, R112, R214). -/

namespace Sys2Proof.Machine

open Config

/-! ### What is reported is what was sent -/

/-- The stream `bs` ends in a start marker, the two bytes of a length that is not zero, and first bytes `data` of frame
data, and `p` holds them: the rows RP and RC of R33 with the bytes that led there (R71). -/
structure ParserState.Receives (p : ParserState) (bs : List Byte) (hi lo : Byte) (data : List Byte) : Prop where
  holds : p.Holds (256 * hi.toNat + lo.toNat) data
  pos : 1 ≤ 256 * hi.toNat + lo.toNat
  hi_ne : hi ≠ startMarker
  lo_ne : lo ≠ startMarker
  data_ne : ∀ b ∈ data, b ≠ startMarker
  type_ne : data.head? ≠ some 0x00
  suffix : startMarker :: hi :: lo :: data <:+ bs

/-- The parser `p` after the stream `bs`: where a frame is in progress, the stream ends in the bytes received of it. -/
inductive ParserState.Traced (p : ParserState) (bs : List Byte) : Prop
  | waiting (h : p.st = .idle ∨ p.st = .rejected)
  | marked (h : p = .cleared .readLengthHigh) (hbs : [startMarker] <:+ bs)
  | lengthHigh (hi : Byte) (h : p = .lengthOnly .readLengthLow (lengthFromHigh hi)) (hhi : hi ≠ startMarker)
      (hbs : [startMarker, hi] <:+ bs)
  | frameData (hi lo : Byte) (data : List Byte) (h : p.Receives bs hi lo data)

section Traced

variable {p : ParserState} {bs data payload : List Byte} {b hi lo t : Byte}

/-- The low length byte after the high one (R107, R108). -/
theorem ParserState.Traced.lowByte (hp : p = .lengthOnly .readLengthLow (lengthFromHigh hi)) (hhi : hi ≠ startMarker)
    (hbs : [startMarker, hi] <:+ bs) (hb : b ≠ startMarker) : (p.byteEffect b).1.Traced (bs ++ [b]) := by
  subst hp
  by_cases hz : (lengthFromHigh hi).extractLsb' 8 8 = 0x00#8 ∧ b = 0x00
  · rw [ParserState.byteEffect_lenLoZero (p := .lengthOnly .readLengthLow (lengthFromHigh hi)) rfl hb hz]
    exact .waiting (.inr rfl)
  · have hlength := lengthWithLow_lengthFromHigh_toNat hi b
    have hpos := lengthWithLow_pos (lengthFromHigh_low hi) hz
    have hholds := ParserState.lengthOnly_holds hpos
    rw [hlength] at hpos hholds
    rw [← feed_eq, feed_lengthOnly_low hb hz]
    exact .frameData hi b [] ⟨hholds, hpos, hhi, hb, List.forall_mem_nil _, nofun, List.suffix_append_self_iff.mpr hbs⟩

/-- One more byte of the frame data is received. -/
theorem ParserState.Receives.byteEffect (h : p.Receives bs hi lo data)
    (hlt : data.length < 256 * hi.toNat + lo.toNat) (hb : b ≠ startMarker) (h0 : ¬(data = [] ∧ b = 0x00)) :
    (p.byteEffect b).1.Receives (bs ++ [b]) hi lo (data ++ [b]) where
  holds := (h.holds.byteEffect hlt hb fun hnil hz => h0 ⟨hnil, hz⟩).1
  pos := h.pos
  hi_ne := h.hi_ne
  lo_ne := h.lo_ne
  data_ne := List.forall_mem_append.mpr ⟨h.data_ne, List.forall_mem_singleton.mpr hb⟩
  type_ne := by
    cases data with
    | nil => simpa using h0
    | cons d ds => exact h.type_ne
  suffix := List.suffix_append_self_iff.mpr h.suffix

/-- A byte after the length is received, unless it is a zero frame type or the checksum byte (R109 to R113). -/
theorem ParserState.Receives.traced (h : p.Receives bs hi lo data) (hb : b ≠ startMarker) :
    (p.byteEffect b).1.Traced (bs ++ [b]) := by
  have hrem := h.holds.rem
  by_cases hlt : data.length < 256 * hi.toNat + lo.toNat
  · by_cases h0 : data = [] ∧ b = 0x00
    · obtain ⟨rfl, rfl⟩ := h0
      rw [ParserState.byteEffect_typeZero (h.holds.st_of_lt hlt) (by simpa using h.holds.ftv)]
      exact .waiting (.inr rfl)
    · exact .frameData hi lo (data ++ [b]) (h.byteEffect hlt hb h0)
  · have hst : p.st = .readChecksum := by rw [h.holds.st, if_pos (by omega)]
    by_cases hk : b = 0xFF - p.cks
    · rw [ParserState.byteEffect_cksumOk hst hb hk]
      exact .waiting (.inl rfl)
    · rw [ParserState.byteEffect_cksumBad hst hb hk]
      exact .waiting (.inl rfl)

/-- Every byte keeps the trace. -/
theorem ParserState.Traced.byteEffect (h : p.Traced bs) (b : Byte) : (p.byteEffect b).1.Traced (bs ++ [b]) := by
  by_cases hb : b = startMarker
  · rw [hb, ParserState.byteEffect_startMarker]
    exact .marked rfl (List.suffix_append ..)
  cases h with
  | waiting h =>
    rw [ParserState.byteEffect_waiting h hb]
    exact .waiting h
  | marked h hbs =>
    rw [h, ← feed_eq, feed_cleared_lengthHigh hb]
    exact .lengthHigh b rfl hb (List.suffix_append_self_iff.mpr hbs)
  | lengthHigh hi h hhi hbs => exact .lowByte h hhi hbs hb
  | frameData hi lo data h => exact h.traced hb

/-- FrameComplete is reported only on the byte that validates the sum (R112). -/
theorem ParserState.checksum_of_frameComplete {raw : RawFrame} (h : (p.byteEffect b).2 = .frameComplete raw) :
    b ≠ startMarker ∧ b = compute p.cks := by
  obtain ⟨hst, -⟩ := ParserState.byteEffect_frameComplete h
  by_cases hb : b = startMarker
  · rw [hb, ParserState.byteEffect_startMarker, hst] at h
    cases h
  · by_cases hk : b = 0xFF - p.cks
    · exact ⟨hb, hk⟩
    · rw [ParserState.byteEffect_cksumBad hst hb hk] at h
      cases h

/-- The checksum byte after the whole frame data makes the stream end in the wire bytes of a receivable frame. -/
theorem ParserState.Receives.frameBytes (h : p.Receives bs hi lo (t :: payload))
    (hlen : (t :: payload).length = 256 * hi.toNat + lo.toNat) (hb : b ≠ startMarker)
    (hk : b = compute (sumBytes (t :: payload))) :
    frameBytes t payload <:+ bs ++ [b] ∧ Receivable t payload := by
  have hcap : payload.length ≤ payloadCap := le_payloadCap_of_toNat hlen.symm
  have hbytes : lengthBytes payload.length = [hi, lo] := lengthBytes_of_toNat hcap hlen.symm
  obtain ⟨ht, hpayload⟩ := List.forall_mem_cons.mp h.data_ne
  refine ⟨?_, by simpa using h.type_ne, ht, hcap, hpayload, ?_, hk ▸ hb⟩
  · rw [Sys2Proof.frameBytes, hbytes, ← hk]
    exact List.suffix_append_self_iff.mpr h.suffix
  · rw [hbytes]
    exact List.forall_mem_cons.mpr ⟨h.hi_ne, List.forall_mem_singleton.mpr h.lo_ne⟩

/-- Where the trace of a stream is kept, a reported frame is receivable, and the stream ends in its wire bytes. -/
theorem ParserState.Traced.frameComplete {raw : RawFrame} (h : p.Traced bs)
    (hevent : (p.byteEffect b).2 = .frameComplete raw) :
    frameBytes raw.frameType raw.payload <:+ bs ++ [b] ∧ Receivable raw.frameType raw.payload := by
  obtain ⟨hst, rfl⟩ := ParserState.byteEffect_frameComplete hevent
  obtain ⟨hb, hk⟩ := ParserState.checksum_of_frameComplete hevent
  cases h with
  | waiting h => rcases h with h | h <;> simp [hst] at h
  | marked h => simp [h] at hst
  | lengthHigh hi h => simp [h, ParserState.lengthOnly] at hst
  | frameData hi lo data h =>
    have hlen : data.length = 256 * hi.toNat + lo.toNat := by
      by_contra hne
      simp [h.holds.st, hne] at hst
    cases data with
    | nil => exact absurd (h.pos.trans_eq hlen.symm) (by simp)
    | cons t payload =>
      rw [ParserState.rawFrame_frameType, ParserState.rawFrame_payload, h.holds.ft, h.holds.bytes]
      exact h.frameBytes hlen hb (h.holds.cks ▸ hk)

end Traced

/-- The trace is kept along every stream from reset. -/
theorem feedAll_reset_traced (bs : List Byte) : (feedAll .reset bs).1.Traced bs := by
  induction bs using List.reverseRecOn with
  | nil => exact .waiting (.inl rfl)
  | append_singleton bs b ih =>
    rw [feedAll_append, feedAll_cons, feed_eq]
    exact ih.byteEffect b

/-- Settles O49: the last event is that of the last byte, fed to a parser that holds the trace of the bytes before it. -/
theorem frameCompleteOnlyForWireFrames : Obligations.FrameCompleteOnlyForWireFrames := by
  intro bs raw h
  obtain rfl | ⟨bs, b, rfl⟩ := List.eq_nil_or_concat' bs
  · cases h
  · rw [feedAll_append, feedAll_cons, feed_eq, feedAll_nil, List.getLast?_concat, Option.some_inj] at h
    exact (feedAll_reset_traced bs).frameComplete h

/-! ### What is sent is reported -/

/-- After the header of a receivable frame its frame data is held (R109, R111). -/
theorem feedAll_frameData {r : Half} {t : Byte} {p : List Byte} (hr : r.toNat = p.length + 1) (ht : t ≠ 0x00)
    (hdata : ∀ b ∈ t :: p, b ≠ startMarker) :
    (feedAll (.lengthOnly .readPayload r) (t :: p)).1.Holds (p.length + 1) (t :: p) ∧
      (feedAll (.lengthOnly .readPayload r) (t :: p)).2 = List.replicate (p.length + 1) .cont := by
  have hheader := ParserState.lengthOnly_holds (r := r) (by omega)
  rw [hr] at hheader
  exact hheader.feedAll le_rfl hdata (by simpa using ht)

/-- The checksum byte completes the frame that is held (R112). -/
theorem ParserState.Holds.feed_checksum {q : ParserState} {t : Byte} {p : List Byte}
    (h : q.Holds (p.length + 1) (t :: p)) (hk : compute (sumBytes (t :: p)) ≠ startMarker) :
    feed q (compute (sumBytes (t :: p))) = (.cleared .idle, .frameComplete ⟨t, p⟩) := by
  have hst : q.st = .readChecksum := by rw [h.st, List.length_cons, if_pos rfl]
  have hraw : q.rawFrame = ⟨t, p⟩ := by rw [ParserState.rawFrame, h.ft, h.bytes]; rfl
  rw [feed_eq, ParserState.byteEffect_cksumOk hst hk (by rw [h.cks, compute_def]), hraw]

/-- A receivable frame is received, with one Continue for each byte before the checksum byte, and the parser is
cleared (R70, R112, R214). -/
theorem feedAll_frameBytes {q : ParserState} {t : Byte} {p : List Byte} (hq : q.st.inProgress = false)
    (h : Receivable t p) : feedAll q (frameBytes t p) =
      (.cleared .idle, List.replicate (p.length + 4) .cont ++ [.frameComplete ⟨t, p⟩]) := by
  obtain ⟨ht, htm, hcap, hp, hlength, hk⟩ := h
  obtain ⟨hi, lo, hbytes, hlen, hfield⟩ := frameBytes_eq t p
  rw [hlen] at hlength
  have hvalue : 256 * hi.toNat + lo.toNat = p.length + 1 := by
    rw [← append_toNat, hfield, lengthField_toNat hcap]
  have hheader := feedAll_header hq (hlength hi (by simp)) (hlength lo (by simp)) (by omega)
  obtain ⟨hholds, hevents⟩ := feedAll_frameData (r := lengthWithLow (lengthFromHigh hi) lo)
    ((lengthWithLow_lengthFromHigh_toNat hi lo).trans hvalue) ht (List.forall_mem_cons.mpr ⟨htm, hp⟩)
  have hparts : frameBytes t p = [startMarker, hi, lo] ++ ((t :: p) ++ [compute (sumBytes (t :: p))]) := hbytes
  rw [hparts, feedAll_append, hheader, feedAll_append, hevents, feedAll_cons, hholds.feed_checksum hk, feedAll_nil]
  rfl

/-! ### The machine on presented bytes -/

/-- A run of any machine goes on from the state that its first step answers. -/
theorem run_succ_of_next (M : Host.Core) {s t : M.State} (h : M.step s = .next t) (k : Nat) :
    M.run (k + 1) s = M.run k t := by
  simp only [Host.Core.run, h]

theorem run_succ_of_step {s t : State} (h : step s = .next t) (k : Nat) :
    Sys2Proof.core.run (k + 1) s = Sys2Proof.core.run k t := run_succ_of_next Sys2Proof.core h k

/-- One step per presented byte: the parser is fed the bytes, and the last event stands on the output ports. -/
theorem run_bytes {bs : List Byte} (hne : bs ≠ []) {s : State} {rest : List Stimulus}
    (hinputs : s.inputs = bs.map Stimulus.byte ++ rest) : Sys2Proof.core.run bs.length s = .next
      { parser := (feedAll s.parser bs).1, inputs := rest,
        out := portsAfter (feedAll s.parser bs).2.getLast? none } := by
  induction bs generalizing s with
  | nil => exact absurd rfl hne
  | cons b bs ih =>
    rw [List.length_cons, run_succ_of_step (step_byte_eq s b none _ hinputs), feedAll_cons, feed_eq]
    cases bs with
    | nil => rfl
    | cons c bs =>
      rw [ih (List.cons_ne_nil c bs) rfl, feedAll_cons]
      rfl

/-- Settles O50: one step presents the frame's bytes, and the steps of the bytes feed them to the parser. -/
theorem presentedFrameIsReported : Obligations.PresentedFrameIsReported := by
  intro s t p rest hinputs hst hrec
  have ⟨_, _, hcap, _⟩ := hrec
  have hidle : s.parser.st.inProgress = false := by rcases hst with h | h <;> rw [h] <;> rfl
  have hlen : (frameBytes t p).length = p.length + 5 := by simp [frameBytes, lengthBytes]
  have hne : frameBytes t p ≠ [] := nofun
  rw [run_succ_of_step (step_frame hinputs hcap), ← hlen, run_bytes hne rfl, feedAll_frameBytes hidle hrec,
    List.getLast?_concat]
  rfl

end Sys2Proof.Machine

/-! The frame state machine: the selection and the effect of each step class (R101 to R113), RESET and NODATA (R119,
R120), the transition table (R114), the ways into and out of Idle and Rejected, and streams of bytes with "no data" in
them (R116, R118). -/

namespace Sys2Proof.Machine

open Config

/-! ### Selection (R74, R75) -/

/-- A class runs exactly where the third column of R74 selects it. -/
theorem ParserState.runs_iff_selectedWhen (p : ParserState) (b : Byte) (i : Instr) :
    p.Runs b i ↔ SelectedWhen i p b := by
  obtain ⟨-, hruns, -⟩ := decodeWordSelectsClass p b
  exact hruns i

theorem SelectedWhen.runs {i : Instr} {p : ParserState} {b : Byte} (h : SelectedWhen i p b) : p.Runs b i :=
  (p.runs_iff_selectedWhen b i).mpr h

/-- GarbageByte in words (R102). -/
theorem garbageByte_iff (t : Tag) (b : Byte) : garbageByte t b = true ↔ t = .idle ∧ b ≠ startMarker := by
  rw [garbageByte, Bool.and_eq_true, beq_iff_eq, bne_iff_ne]

/-! ### What the invariants say before a step (R33) -/

section Inv

variable {p : ParserState}

/-- In Idle the transient fields are clear, so moving on from it is moving on from a cleared state. -/
theorem ParserState.Inv.with_st_eq_cleared (h : p.Inv) (hst : p.st = .idle) (t : Tag) :
    { p with st := t } = cleared t := by
  obtain ⟨hcleared, -, -, -⟩ := h
  rw [hcleared (.inl hst)]
  rfl

/-- Before the frame type the sum is zero and at least one byte is to come. -/
theorem ParserState.Inv.before_type (h : p.Inv) (hst : p.st = .readPayload) (hv : p.ftv = false) :
    p.cks = 0 ∧ 1 ≤ p.rem.toNat := by
  obtain ⟨-, -, hpayload, -⟩ := h
  obtain ⟨hrem, ⟨hftv, -⟩ | hlength⟩ := hpayload hst
  · exact absurd hftv (by simp [hv])
  · exact ⟨congrArg ParserState.cks hlength, hrem⟩

/-- Before a payload byte the buffer has room for it, and at least one byte is to come. -/
theorem ParserState.Inv.before_data (h : p.Inv) (hst : p.st = .readPayload) (hv : p.ftv = true) :
    1 ≤ p.rem.toNat ∧ p.blen ≤ 65533 := by
  obtain ⟨-, -, hpayload, -⟩ := h
  obtain ⟨hrem, ⟨-, -, -, -, -, -, hlen⟩ | hlength⟩ := hpayload hst
  · simp only [ParserState.frameLength, ParserState.frameData, hv, if_true, List.length_cons,
      Memory.length_bytes] at hlen
    rw [ParserState.blen]
    omega
  · exact absurd (congrArg ParserState.ftv hlength) (by simp [hv, ParserState.lengthOnly])

end Inv

/-- The assembled length is zero exactly where both its bytes are (R107, R108). -/
theorem lengthWithLow_eq_zero_iff {r : Half} (hr : r.extractLsb' 0 8 = 0#8) (b : Byte) :
    lengthWithLow r b = 0 ↔ r.extractLsb' 8 8 = 0x00#8 ∧ b = 0x00 := by
  rw [lengthHighZero_iff_zero r hr, ← BitVec.toNat_inj, lengthWithLow_toNat r b hr, ← BitVec.toNat_inj (x := b)]
  exact Nat.add_eq_zero_iff

/-! ### The start-marker steps (R101 to R105) -/

/-- Settles O10: START resumes with a cleared state, which in Idle differs in the tag alone. -/
theorem startBeginsFrame : Obligations.StartBeginsFrame := by
  intro s
  refine ⟨fun hst => SelectedWhen.runs ⟨hst, rfl⟩, exec_start s, fun hinv hst => ?_⟩
  rw [hinv.with_st_eq_cleared hst]
  exact exec_start s

/-- Settles O11: the meaning of GARBAGE reports Continue over the same parser. -/
theorem garbageIsIgnored : Obligations.GarbageIsIgnored := fun s b =>
  ⟨fun hst hb => SelectedWhen.runs ⟨hst, hb, rfl⟩, exec_garbage s b, garbageByte_iff s.parser.st b⟩

/-- Settles O12: neither Idle nor Rejected leaves the four states of a frame in progress. -/
theorem preemptDiscardsFrame : Obligations.PreemptDiscardsFrame := by
  refine fun s => ⟨?_, exec_preempt s⟩
  rw [ParserState.runs_iff_selectedWhen]
  cases hst : s.parser.st <;> simp [SelectedWhen, hst]

/-- Settles O13: RESTART and START are one meaning, and PREEMPT is not selected in Rejected. -/
theorem restartLeavesRejected : Obligations.RestartLeavesRejected := by
  refine fun s => ⟨fun hst => ⟨SelectedWhen.runs ⟨hst, rfl⟩, fun hpreempt => ?_⟩, exec_restart s, rfl⟩
  obtain ⟨-, hne, -⟩ := (s.parser.runs_iff_selectedWhen _ _).mp hpreempt
  exact hne hst

/-- Settles O14: the meaning of ABSORB reports Continue over the same parser. -/
theorem absorbIsSilent : Obligations.AbsorbIsSilent := fun s b =>
  ⟨fun hst hb => SelectedWhen.runs ⟨hst, hb, rfl⟩, exec_absorb s b, rfl⟩

/-! ### The length steps (R106 to R108) -/

/-- Settles O15: the shift is `lengthFromHigh`. -/
theorem lenHiSetsHighLength : Obligations.LenHiSetsHighLength := fun s b =>
  ⟨fun hst hb => SelectedWhen.runs ⟨hst, hb, rfl⟩, exec_lenHi s b, lengthFromHigh_toNat b⟩

/-- Settles O16: the OR is `lengthWithLow`, which the invariants make zero only for LEN_LO_ZERO. -/
theorem lenLoCompletesLength : Obligations.LenLoCompletesLength := by
  refine fun s b => ⟨fun hst hinv hb hne => ?_, exec_lenLo s b, lengthWithLow_toNat s.parser.rem b⟩
  obtain ⟨-, hlow, -, -⟩ := hinv
  obtain ⟨hr, -⟩ := hlow hst
  exact SelectedWhen.runs ⟨hst, hb, mt (lengthWithLow_eq_zero_iff hr b).mpr hne, rfl⟩

/-- Settles O17: LEN_LO_ZERO raises ZeroLengthFrame. -/
theorem zeroLengthRejects : Obligations.ZeroLengthRejects := fun s =>
  ⟨fun hst hz => SelectedWhen.runs ⟨hst, hz, rfl⟩, exec_lenLoZero s⟩

/-! ### The frame-data steps (R109 to R111) -/

/-- Settles O18: TYPE consumes its byte, and before it the sum is zero. -/
theorem typeStoresFrameType : Obligations.TypeStoresFrameType := by
  refine fun s b => ⟨fun hst hv h0 hb => SelectedWhen.runs ⟨hst, hv, h0, hb, rfl⟩, exec_typeByte s b,
    fun hinv hst hv => ?_⟩
  obtain ⟨hcks, hrem⟩ := hinv.before_type hst hv
  exact ⟨by rw [hcks]; exact BitVec.zero_add b, hrem⟩

/-- Settles O19: TYPE_ZERO raises ZeroFrameType. -/
theorem zeroTypeRejects : Obligations.ZeroTypeRejects := fun s =>
  ⟨fun hst hv => SelectedWhen.runs ⟨hst, hv, rfl⟩, exec_typeZero s⟩

/-- Settles O20: DATA appends and consumes its byte, and the invariants leave room for it. -/
theorem dataAppendsPayloadByte : Obligations.DataAppendsPayloadByte := fun s b =>
  ⟨fun hst hv hb => SelectedWhen.runs ⟨hst, hv, hb, rfl⟩, exec_data s b, fun hinv => hinv.before_data⟩

/-! ### The checksum steps (R112, R113) -/

/-- Settles O23: the frame reported is the one held before the clearing, and in RC it has its type. -/
theorem validChecksumCompletesFrame : Obligations.ValidChecksumCompletesFrame := by
  refine fun s b => ⟨fun hst hb hk => SelectedWhen.runs ⟨hst, hb, hk, rfl⟩, exec_cksumOk s b, fun hinv hst => ?_⟩
  obtain ⟨-, -, -, hchecksum⟩ := hinv
  obtain ⟨-, hftv, -⟩ := hchecksum hst
  exact hftv

/-- Settles O24: CKSUM_BAD raises ChecksumFailed. -/
theorem wrongChecksumFailsFrame : Obligations.WrongChecksumFailsFrame := fun s b =>
  ⟨fun hst hb hk => SelectedWhen.runs ⟨hst, hb, hk, rfl⟩, exec_cksumBad s b⟩

/-! ### RESET and NODATA (R119, R120) -/

/-- Settles O26: `step_ports` gives the step, and RESET leaves nothing of the state before for a second one to clear. -/
theorem resetDropsFrameSilently : Obligations.ResetDropsFrameSilently := by
  refine ⟨exec_reset, fun s inValid b enc rest hinputs => ⟨_, step_ports s true inValid b enc rest hinputs, rfl, rfl⟩,
    fun s t h => ?_⟩
  cases h
  rfl

/-- Settles O27: NODATA reports nothing over the same parser. -/
theorem noDataChangesNothing : Obligations.NoDataChangesNothing :=
  ⟨exec_noData, fun s b enc rest hinputs => ⟨_, step_ports s false false b enc rest hinputs, rfl, rfl⟩⟩

/-! ### The whole step (R100, R114) -/

/-- On the parser's ports an event is reported for a byte presented without reset, and for nothing else (R100). -/
theorem eventAfter_parser_iff (p : ParserState) (rst inValid : Bool) (b : Byte) (enc : Option (Byte × Byte)) :
    (rst = false ∧ inValid = true) ↔ ∃ e, eventAfter p (.parser rst inValid b enc) = some e := by
  cases rst <;> cases inValid <;> simp [eventAfter]

/-- Settles O35: `step_ports` is the step. -/
theorem parserPortStepCompletes : Obligations.ParserPortStepCompletes := fun s rst inValid b enc rest hinputs =>
  ⟨_, step_ports s rst inValid b enc rest hinputs, rfl, eventAfter_parser_iff s.parser rst inValid b enc⟩

/-- The last byte to come is the one that `rem` = 1 announces (R109, R111). -/
theorem ParserState.consume_st_eq (p : ParserState) (b : Byte) :
    (p.consume b).st = if p.rem = 1 then .readChecksum else .readPayload := by
  have hlast : p.rem - 1 = 0 ↔ p.rem = 1 := sub_eq_zero
  simp only [ParserState.consume_st, hlast]

/-- The effect of a byte is the transition table's (R114): the start marker in every state, any other byte state by
state. -/
theorem ParserState.byteEffect_transitionTable (p : ParserState) (b : Byte) :
    ((p.byteEffect b).1.st, (p.byteEffect b).2) = transitionTable p b := by
  by_cases hb : b = startMarker
  · rw [hb, ParserState.byteEffect_startMarker]
    cases hst : p.st <;> simp [transitionTable, Tag.inProgress, hst]
  cases hst : p.st with
  | idle =>
    rw [ParserState.byteEffect_waiting (.inl hst) hb]
    simp only [transitionTable, hst, if_neg hb]
  | rejected =>
    rw [ParserState.byteEffect_waiting (.inr hst) hb]
    simp only [transitionTable, hst, if_neg hb]
  | readLengthHigh =>
    rw [ParserState.byteEffect_lenHi hst hb]
    simp only [transitionTable, hst, if_neg hb]
  | readLengthLow =>
    by_cases hz : p.rem.extractLsb' 8 8 = 0x00#8 ∧ b = 0x00
    · rw [ParserState.byteEffect_lenLoZero hst hb hz]
      simp only [transitionTable, hst, if_neg hb, if_pos hz, ParserState.cleared_st]
    · rw [ParserState.byteEffect_lenLo hst hb hz]
      simp only [transitionTable, hst, if_neg hb, if_neg hz]
  | readPayload =>
    by_cases hz : p.ftv = false ∧ b = 0x00
    · obtain ⟨hv, rfl⟩ := hz
      rw [ParserState.byteEffect_typeZero hst hv]
      simp only [transitionTable, hst, if_neg hb, hv, and_self, if_true, ParserState.cleared_st]
    · have htable : transitionTable p b = ((p.consume b).st, .cont) := by
        simp only [transitionTable, hst, if_neg hb, if_neg hz, p.consume_st_eq]
      rw [htable]
      cases hv : p.ftv with
      | true =>
        rw [ParserState.byteEffect_data hst hv hb]
        rfl
      | false =>
        rw [ParserState.byteEffect_typeByte hst hv hb fun h0 => hz ⟨hv, h0⟩]
  | readChecksum =>
    by_cases hk : b = 0xFF - p.cks
    · rw [ParserState.byteEffect_cksumOk hst hb hk]
      simp only [transitionTable, hst, if_neg hb, if_pos hk, ParserState.cleared_st]
    · rw [ParserState.byteEffect_cksumBad hst hb hk]
      simp only [transitionTable, hst, if_neg hb, if_neg hk, ParserState.cleared_st]

/-- Settles O38: the step of a byte has its effect, and the effect is the table's. -/
theorem stepFollowsTransitionTable : Obligations.StepFollowsTransitionTable := by
  intro s b enc rest hinputs
  rw [← ParserState.byteEffect_transitionTable]
  exact ⟨_, step_byte_eq s b enc rest hinputs, rfl, rfl⟩

/-! ### The ways into and out of Idle and Rejected (R114) -/

/-- A step leaves the parser, resets it, or has the effect of a byte presented without reset. -/
theorem step_parser_cases {s t : State} (h : step s = .next t) :
    t.parser = s.parser ∨
    ((∃ inValid b enc rest, s.inputs = .parser true inValid b enc :: rest) ∧ t.parser = .reset) ∨
    ∃ b enc rest, s.inputs = .parser false true b enc :: rest ∧ t.parser = (s.parser.byteEffect b).1 ∧
      t.event = some (s.parser.byteEffect b).2 := by
  obtain ⟨-, rfl⟩ | ⟨x, rest, hinputs, hparser, hevent⟩ := step_next_cases h
  · exact .inl rfl
  cases x with
  | parser rst inValid b enc =>
    cases rst with
    | true => exact .inr (.inl ⟨⟨inValid, b, enc, rest, hinputs⟩, hparser⟩)
    | false =>
      cases inValid with
      | true => exact .inr (.inr ⟨b, enc, rest, hinputs, hparser, hevent⟩)
      | false => exact .inl hparser
  | encoder c0 c1 | frame ft payload | atFrame c0 c1 k | rawFrame raw => exact .inl hparser

section Ways

variable {p : ParserState} {b : Byte}

/-- Only the two rejections lead into Rejected (R108, R110). -/
theorem transitionTable_into_rejected (h : (transitionTable p b).1 = .rejected) (hst : p.st ≠ .rejected) :
    (transitionTable p b).2 = .zeroLengthFrame ∨ (transitionTable p b).2 = .zeroFrameType := by
  unfold transitionTable at h ⊢
  cases hp : p.st with
  | rejected => exact absurd hp hst
  | idle | readLengthHigh | readChecksum =>
    simp only [hp] at h
    split_ifs at h
  | readLengthLow =>
    simp only [hp] at h ⊢
    split_ifs at h ⊢
    exact .inl rfl
  | readPayload =>
    simp only [hp] at h ⊢
    split_ifs at h ⊢
    exact .inr rfl

/-- Only the two outcomes of the checksum lead into Idle (R112, R113). -/
theorem transitionTable_into_idle (h : (transitionTable p b).1 = .idle) (hst : p.st ≠ .idle) :
    (transitionTable p b).2 = .checksumFailed ∨ ∃ raw, (transitionTable p b).2 = .frameComplete raw := by
  unfold transitionTable at h ⊢
  cases hp : p.st with
  | idle => exact absurd hp hst
  | rejected | readLengthHigh | readLengthLow | readPayload =>
    simp only [hp] at h
    split_ifs at h
  | readChecksum =>
    simp only [hp] at h ⊢
    split_ifs at h ⊢
    · exact .inr ⟨_, rfl⟩
    · exact .inl rfl

/-- Of the bytes, only the start marker leaves Idle and Rejected, and it leads to RLH (R101, R104). -/
theorem ParserState.byteEffect_leaves_waiting (hst : p.st = .idle ∨ p.st = .rejected)
    (h : (p.byteEffect b).1.st ≠ p.st) : b = startMarker ∧ (p.byteEffect b).1.st = .readLengthHigh := by
  by_cases hb : b = startMarker
  · rw [hb, ParserState.byteEffect_startMarker]
    exact ⟨rfl, rfl⟩
  · rw [ParserState.byteEffect_waiting hst hb] at h
    exact absurd rfl h

end Ways

/-- Settles O39: of the three cases of a step, the first moves nothing, the reset leads to Idle, and the byte goes where
the table says. -/
theorem onlyWaysIntoIdleAndRejected : Obligations.OnlyWaysIntoIdleAndRejected := by
  intro s t hstep
  obtain hparser | ⟨hreset, hparser⟩ | ⟨b, enc, rest, hinputs, hparser, hevent⟩ := step_parser_cases hstep
  · rw [hparser]
    exact ⟨absurd, absurd, absurd, absurd⟩
  · rw [hparser]
    exact ⟨nofun, fun _ _ => .inl hreset, fun _ _ => .inl hreset, fun _ hne => absurd rfl hne⟩
  · obtain ⟨htag, htable⟩ := Prod.ext_iff.mp (s.parser.byteEffect_transitionTable b)
    rw [hparser, hevent]
    simp only at htag htable
    simp only [Option.some_inj]
    refine ⟨fun h hne => ?_, fun h hne => .inr ?_, fun hst h => .inr ?_, fun hst h => ?_⟩
    · rw [htable]
      exact transitionTable_into_rejected (htag ▸ h) hne
    · rw [htable]
      exact transitionTable_into_idle (htag ▸ h) hne
    · obtain ⟨rfl, hnext⟩ := ParserState.byteEffect_leaves_waiting (.inr hst) (hst ▸ h)
      exact ⟨⟨enc, rest, hinputs⟩, hnext⟩
    · obtain ⟨rfl, hnext⟩ := ParserState.byteEffect_leaves_waiting (.inl hst) (hst ▸ h)
      exact ⟨⟨enc, rest, hinputs⟩, hnext⟩

/-! ### Resynchronisation and reception (R76, R112, R118) -/

/-- Settles O42: `ParserState.byteEffect_startMarker` in every state. -/
theorem startMarkerAlwaysResynchronises : Obligations.StartMarkerAlwaysResynchronises := by
  intro p
  rw [feed_eq, ParserState.byteEffect_startMarker]
  rfl

/-- After a start marker only its own event tells from which state it came. -/
theorem feedAll_startMarker_cons (p : ParserState) (bs : List Byte) : feedAll p (startMarker :: bs) =
    ((feedAll (.cleared .readLengthHigh) bs).1,
      (if p.st.inProgress then .framePreempted else .cont) :: (feedAll (.cleared .readLengthHigh) bs).2) := by
  rw [feedAll_cons, feed_eq, ParserState.byteEffect_startMarker]

/-- A receivable frame is received from every state, preempting the frame in progress if there is one (R103, R118). -/
theorem feedAll_frameBytes_from_any (q : ParserState) {t : Byte} {p : List Byte} (h : Receivable t p) :
    feedAll q (frameBytes t p) = (.cleared .idle,
      (if q.st.inProgress then .framePreempted else .cont) :: List.replicate (p.length + 3) .cont ++
        [.frameComplete ⟨t, p⟩]) := by
  have hidle := feedAll_frameBytes (q := .reset) rfl h
  rw [frameBytes, List.cons_append, List.cons_append, feedAll_startMarker_cons] at hidle ⊢
  obtain ⟨hparser, hevents⟩ := Prod.ext_iff.mp hidle
  rw [hparser, (List.cons.inj hevents).2]
  rfl

/-- The shortest frame, byte by byte. -/
theorem frameBytes_nil (t : Byte) : frameBytes t [] = [0x7E, 0x00, 0x01, t, 0xFF - t] := by
  have hsum : sumBytes [t] = t := BitVec.zero_add t
  rw [frameBytes, hsum]
  rfl

theorem receivable_nil {t : Byte} (h0 : t ≠ 0x00) (hm : t ≠ startMarker) (hk : 0xFF - t ≠ startMarker) :
    Receivable t [] := by
  have hsum : sumBytes [t] = t := BitVec.zero_add t
  exact ⟨h0, hm, by simp, by simp, by decide, by rwa [hsum]⟩

/-- Settles O43: the five bytes are the shortest frame, which is received from every state. -/
theorem everyStateCanCompleteFrame : Obligations.EveryStateCanCompleteFrame := by
  intro p t h0 hm hk
  rw [← frameBytes_nil, feedAll_frameBytes_from_any p (receivable_nil h0 hm hk), List.getLast?_concat]
  exact ⟨rfl, rfl⟩

/-- Settles O48: `feedAll_frameBytes`, for in Idle and Rejected no frame is in progress. -/
theorem receivableFrameIsReceived : Obligations.ReceivableFrameIsReceived := by
  intro s t p hst hrec
  have hidle : s.st.inProgress = false := by rcases hst with h | h <;> rw [h] <;> rfl
  exact feedAll_frameBytes hidle hrec

/-! ### Streams with "no data" in them (R116, R119) -/

/-- A run goes on from the state that its first steps answer. -/
theorem run_add_of_next {M : Host.Core} {s t : M.State} {m : Nat} (h : M.run m s = .next t) (n : Nat) :
    M.run (m + n) s = M.run n t := by
  induction m generalizing s with
  | zero =>
    cases h
    rw [Nat.zero_add]
  | succ m ih =>
    rw [Nat.add_right_comm, Host.Core.run]
    rw [Host.Core.run] at h
    split at h
    · exact ih h
    · cases h
    · cases h

/-- The events of a run are those of its first step and those after it. -/
theorem State.events_succ_of_step {s t : State} (h : step s = .next t) (k : Nat) :
    s.events (k + 1) = t.event.toList ++ t.events k := by
  simp only [State.events, h]

/-- One step per offer: the parser is fed the bytes alone, and what the steps leave on the output ports does not depend
on what is still to come. -/
theorem run_offers (offers : List (Option Byte)) (s : State) : ∃ out, ∀ rest,
    Sys2Proof.core.run offers.length { s with inputs := offers.map Stimulus.offer ++ rest } = .next
      { parser := (feedAll s.parser offers.reduceOption).1, inputs := rest, out := out } := by
  induction offers generalizing s with
  | nil => exact ⟨s.out, fun rest => rfl⟩
  | cons x offers ih =>
    cases x with
    | none =>
      obtain ⟨out, hrun⟩ := ih { s with out := portsAfter none none }
      refine ⟨out, fun rest => ?_⟩
      rw [List.length_cons, run_succ_of_step (step_ports _ false false 0x00 none _ rfl)]
      exact hrun rest
    | some b =>
      obtain ⟨out, hrun⟩ := ih
        { s with parser := (feed s.parser b).1, out := portsAfter (some (feed s.parser b).2) none }
      refine ⟨out, fun rest => ?_⟩
      rw [List.length_cons, run_succ_of_step (step_byte_eq _ b none _ rfl), ← feed_eq]
      exact hrun rest

/-- The steps of the offers report the events of the bytes alone. -/
theorem events_offers (offers : List (Option Byte)) {s : State} {rest : List Stimulus}
    (hinputs : s.inputs = offers.map Stimulus.offer ++ rest) :
    s.events offers.length = (feedAll s.parser offers.reduceOption).2 := by
  induction offers generalizing s with
  | nil => rfl
  | cons x offers ih =>
    cases x with
    | none =>
      rw [List.length_cons, State.events_succ_of_step (step_ports s false false 0x00 none _ hinputs), ih rfl]
      rfl
    | some b =>
      rw [List.length_cons, State.events_succ_of_step (step_byte_eq s b none _ hinputs), ih rfl,
        List.reduceOption_cons_of_some, feedAll_cons, feed_eq]
      rfl

/-- Settles O45: `run_offers` and `events_offers` with nothing after the stream. -/
theorem noDataIntervalsAreInvisible : Obligations.NoDataIntervalsAreInvisible := by
  intro offers s hinputs
  have hinputs' : s.inputs = offers.map Stimulus.offer ++ [] := by rw [hinputs, List.append_nil]
  obtain ⟨out, hrun⟩ := run_offers offers s
  have hrun := hrun []
  rw [← hinputs'] at hrun
  exact ⟨⟨_, hrun, rfl, rfl⟩, events_offers offers hinputs'⟩

/-- Settles O44: a byte-step is the same whatever stands beside the parser; the first load runs to the same state with
the second one waiting behind it, and `feedAll_append` joins the events. -/
theorem feedingIsChunkingInvariant : Obligations.FeedingIsChunkingInvariant := by
  refine ⟨fun p b enc enc' rest rest' out out' => ⟨_, _, step_byte_eq _ b enc rest rfl, step_byte_eq _ b enc' rest' rfl,
    rfl, rfl, rfl, rfl⟩, fun s xs ys => ?_⟩
  obtain ⟨out, hxs⟩ := run_offers xs s
  obtain ⟨out', hys⟩ := run_offers ys { s with parser := (feedAll s.parser xs.reduceOption).1, out := out }
  have hfirst := hxs []
  have hsecond := hys []
  rw [List.append_nil] at hfirst hsecond
  refine ⟨_, _, hfirst, rfl, hsecond, rfl, ?_, ?_⟩
  · rw [List.map_append]
    exact (run_add_of_next (hxs _) ys.length).trans hsecond
  · have hwhole := events_offers (xs ++ ys) (s := { s with inputs := (xs ++ ys).map Stimulus.offer })
      (List.append_nil _).symm
    rw [List.length_append, List.reduceOption_append, feedAll_append] at hwhole
    rw [hwhole, events_offers xs (List.append_nil _).symm, events_offers ys (List.append_nil _).symm]

end Sys2Proof.Machine

/-! The ChecksumAccumulator (R140 to R145): what its three functions compute, that its sum does not depend on the order
of the bytes, and which errors a checksum byte detects. -/

namespace Sys2Proof

/-! ### The three functions (R140 to R142) -/

theorem compute_eq_not (s : Byte) : compute s = ~~~s :=
  BitVec.allOnes_sub_eq_not s

theorem compute_toNat (s : Byte) : (compute s).toNat = 255 - s.toNat := by
  rw [compute_eq_not, BitVec.toNat_not]

/-- Two sums with the same checksum byte are the same. -/
theorem compute_inj {s s' : Byte} : compute s = compute s' ↔ s = s' :=
  BitVec.sub_right_inj 0xFF

theorem validate_compute (s : Byte) : validate s (compute s) = true :=
  (validate_iff s _).mpr rfl

/-- The "sum to 0xFF" form of `validate` (R141): two bytes sum to less than 2 * 256, so the remainder is 0xFF only when
the sum is. -/
theorem validate_iff_sum (s c : Byte) : validate s c = true ↔ (s.toNat + c.toNat) % 256 = 0xFF := by
  rw [validate_iff, ← BitVec.toNat_inj, compute_toNat]
  omega

theorem accumulate_toNat (s b : Byte) : (accumulate s b).toNat = (s.toNat + b.toNat) % 256 :=
  BitVec.toNat_add s b

theorem accumulate_right_comm (s b c : Byte) :
    accumulate (accumulate s b) c = accumulate (accumulate s c) b :=
  add_right_comm s b c

/-- Settles O53: each clause is the rule of one of the three functions. -/
theorem checksumFunctions : Obligations.ChecksumFunctions := fun s b =>
  ⟨compute_toNat s, compute_eq_not s, validate_iff s b, validate_iff_sum s b, accumulate_toNat s b,
    accumulate_right_comm s b⟩

/-! ### The order of the bytes (R142) -/

/-- Settles O56: the sum is a fold of `accumulate`, and two bytes may be accumulated in either order. -/
theorem checksumIgnoresOrder : Obligations.ChecksumIgnoresOrder := fun _ _ hperm =>
  hperm.foldl_eq (rcomm := ⟨accumulate_right_comm⟩) 0x00

/-! ### What the checksum detects (R144, R145) -/

/-- A mask of one bit changes the byte, for bit `i` of the mask is set. -/
theorem xor_bit_ne_self (c : Byte) {i : ℕ} (h : i < 8) : c ^^^ ((1 <<< i : ℕ) : Byte) ≠ c := by
  have hbit : ((1 <<< i : ℕ) : Byte).getLsbD i = true := by
    rw [BitVec.natCast_eq_ofNat, BitVec.getLsbD_ofNat, Nat.one_shiftLeft, Nat.testBit_two_pow_self]
    simpa using h
  intro heq
  rw [xor_left_eq_self_iff.mp heq] at hbit
  simp at hbit

/-- Settles O54: only `compute s` validates `s`, and a flipped bit leads away from it. -/
theorem checksumDetectsBitFlips : Obligations.ChecksumDetectsBitFlips :=
  ⟨fun t p => ⟨validate_compute (sumBytes (t :: p)),
      fun _ hi => (validate_eq_false_iff _ _).mpr (xor_bit_ne_self (compute (sumBytes (t :: p))) hi)⟩,
    fun s c => ⟨validate_compute s, (validate_eq_false_iff s c).mpr⟩⟩

/-- With the bytes around it fixed, one byte is told from another by the sum. -/
theorem sumBytes_replace_inj (xs ys : List Byte) {a b : Byte} :
    sumBytes (xs ++ a :: ys) = sumBytes (xs ++ b :: ys) ↔ a = b := by
  rw [sumBytes_append, sumBytes_append, sumBytes_cons, sumBytes_cons, BitVec.add_right_inj, BitVec.add_left_inj]

/-- Settles O55: the two sums differ, and so do their checksum bytes. -/
theorem checksumDetectsSingleByteError : Obligations.ChecksumDetectsSingleByteError := by
  intro xs ys a b hne
  rw [validate_eq_false_iff, ne_eq, compute_inj, sumBytes_replace_inj]
  exact hne

end Sys2Proof

/-! The FrameDecoder (R150 to R163): what its two payload decoders make of a payload by its length, the fields of an IO
sample at their offsets, and the step of a raw frame, dispatched on the frame type alone. -/

namespace Sys2Proof.Machine

open Config

/-! ### AT command responses (R157 to R159) -/

/-- The result that the number `n` of a result code stands for (R159). -/
def atResultOfNat (code : Byte) (n : ℕ) : AtResult :=
  match n with
  | 0 => .ok
  | 1 => .error
  | 2 => .invalidCommand
  | 3 => .invalidParameter
  | 4 => .txFailure
  | _ => .unknown code

theorem atResultOf_eq (code : Byte) : atResultOf code = atResultOfNat code code.toNat := by
  simp only [atResultOf, ← BitVec.toNat_inj]
  generalize code.toNat = n
  match n with
  | 0 | 1 | 2 | 3 | 4 => rfl
  | n + 5 => simp [atResultOfNat]

theorem decodeAtResponse_of_lt {p : List Byte} (h : p.length < 4) : decodeAtResponse p = .malformedFrame :=
  match p, h with
  | [], _ | [_], _ | [_, _], _ | [_, _, _], _ => rfl

/-- Settles O31: the result code is mapped by its value, and fewer than four bytes do not hold the fields. -/
theorem atResponseDecodesFields : Obligations.AtResponseDecodesFields := by
  refine ⟨fun s frameId c0 c1 code extra => ?_, fun s p hp => ?_⟩
  · rw [exec_atResponse, decodeAtResponse, atResultOf_eq]
    rfl
  · rw [exec_atResponse, decodeAtResponse_of_lt hp]

/-! ### IO samples (R153 to R155) -/

/-- A zero mask announces no digital samples, whatever follows. -/
theorem digitalSamplesOf_zero (bs : List Byte) : digitalSamplesOf 0 bs = some 0 :=
  match bs with
  | [] | [_] | _ :: _ :: _ => rfl

theorem digitalSamplesOf_of_lt {mask : Half} (hmask : mask ≠ 0) {bs : List Byte} (h : bs.length < 2) :
    digitalSamplesOf mask bs = none :=
  match bs, h with
  | [], _ | [_], _ => if_neg hmask

theorem digitalSamplesOf_cons {mask : Half} (hmask : mask ≠ 0) (d0 d1 : Byte) (bs : List Byte) :
    digitalSamplesOf mask (d0 :: d1 :: bs) = some (be16 d0 d1) :=
  congrArg some (if_neg hmask)

theorem decodeIoSample_of_lt {p : List Byte} (h : p.length < 15) : decodeIoSample p = .malformedFrame := by
  unfold decodeIoSample
  split
  · simp only [List.length_cons] at h
    omega
  · rfl

/-- The digital mask of a payload, at its offset (R153). -/
def ioMaskAt (p : List Byte) : Half := be16 (p.getD 12 0) (p.getD 13 0)

/-- The fields of a payload of at least fifteen bytes at their offsets (R153), with the digital samples given. -/
def ioSampleAt (p : List Byte) (samples : Half) : IoSample where
  senderAddress :=
    be64 (p.getD 0 0) (p.getD 1 0) (p.getD 2 0) (p.getD 3 0) (p.getD 4 0) (p.getD 5 0) (p.getD 6 0) (p.getD 7 0)
  sourceNetworkAddress := be16 (p.getD 8 0) (p.getD 9 0)
  receiveOptions := p.getD 10 0
  sampleCount := p.getD 11 0
  digitalMask := ioMaskAt p
  analogMask := p.getD 14 0
  digitalSamples := samples

theorem decodeIoSample_of_le {p : List Byte} (h : 15 ≤ p.length) :
    decodeIoSample p = (digitalSamplesOf (ioMaskAt p) (p.drop 15)).elim .malformedFrame
      fun samples => .frame (.ioSample (ioSampleAt p samples)) := by
  obtain ⟨n, hn⟩ := Nat.exists_eq_add_of_le' h
  match p, hn with
  | a0 :: a1 :: a2 :: a3 :: a4 :: a5 :: a6 :: a7 :: n0 :: n1 :: options :: count :: m0 :: m1 :: analog :: rest, _ =>
    change _ = (digitalSamplesOf (be16 m0 m1) rest).elim _ _
    rw [decodeIoSample]
    cases digitalSamplesOf (be16 m0 m1) rest <;> rfl

theorem decodeIoSample_of_mask_zero {p : List Byte} (h : 15 ≤ p.length) (hmask : ioMaskAt p = 0) :
    decodeIoSample p = .frame (.ioSample (ioSampleAt p 0)) := by
  rw [decodeIoSample_of_le h, hmask, digitalSamplesOf_zero]
  rfl

theorem decodeIoSample_of_mask_of_lt {p : List Byte} (h : 15 ≤ p.length) (hlt : p.length < 17)
    (hmask : ioMaskAt p ≠ 0) : decodeIoSample p = .malformedFrame := by
  have hrest : (p.drop 15).length < 2 := by
    rw [List.length_drop]
    omega
  rw [decodeIoSample_of_le h, digitalSamplesOf_of_lt hmask hrest]
  rfl

theorem decodeIoSample_of_mask_of_le {p : List Byte} (h : 17 ≤ p.length) (hmask : ioMaskAt p ≠ 0) :
    decodeIoSample p = .frame (.ioSample (ioSampleAt p (be16 (p.getD 15 0) (p.getD 16 0)))) := by
  have hrest : p.drop 15 = p.getD 15 0 :: p.getD 16 0 :: p.drop 17 := by
    rw [List.drop_eq_getElem_cons (by omega), List.drop_eq_getElem_cons (by omega),
      List.getD_eq_getElem p 0 (by omega), List.getD_eq_getElem p 0 (by omega)]
  rw [decodeIoSample_of_le (by omega), hrest, digitalSamplesOf_cons hmask]
  rfl

/-- Settles O32: one of the four cases of length and mask each; `ioSampleAt` has the fields at their offsets. -/
theorem ioSampleDecodesFields : Obligations.IoSampleDecodesFields := by
  intro s p
  rw [exec_ioSample]
  refine ⟨fun hlt => ?_, fun hle hmask => ?_, fun hle hlt hmask => ?_, fun hle hmask => ?_⟩
  · rw [decodeIoSample_of_lt hlt]
  · change ioMaskAt p = 0 at hmask
    rw [decodeIoSample_of_mask_zero hle hmask, ioSampleAt, hmask]
    rfl
  · rw [decodeIoSample_of_mask_of_lt hle hlt hmask]
  · rw [decodeIoSample_of_mask_of_le hle hmask]
    rfl

/-! ### Raw frames (R150 to R152, R161, R163) -/

/-- Settles O33: the meaning of OPAQUE reports the type and the payload it is given. -/
theorem opaqueRetainsPayload : Obligations.OpaqueRetainsPayload := exec_opaqueFrame

section Dispatch

variable {raw : RawFrame}

theorem decodeRaw_of_atResponse (ht : raw.frameType = atResponseType) :
    decodeRaw raw = decodeAtResponse raw.payload :=
  if_pos ht

theorem decodeRaw_of_ioSample (ht : raw.frameType = ioSampleType) : decodeRaw raw = decodeIoSample raw.payload := by
  rw [decodeRaw, if_pos ht, if_neg (by rw [ht]; decide)]

theorem decodeRaw_of_other (hat : raw.frameType ≠ atResponseType) (hio : raw.frameType ≠ ioSampleType) :
    decodeRaw raw = .frame (.opaqueFrame raw.frameType raw.payload) := by
  rw [decodeRaw, if_neg hat, if_neg hio]

end Dispatch

theorem frameType_of_decodeAtResponse {p : List Byte} {f : Frame} (h : decodeAtResponse p = .frame f) :
    f.frameType = atResponseType := by
  unfold decodeAtResponse at h
  split at h <;> cases h
  rfl

theorem frameType_of_decodeIoSample {p : List Byte} {f : Frame} (h : decodeIoSample p = .frame f) :
    f.frameType = ioSampleType := by
  unfold decodeIoSample at h
  split at h
  · split at h <;> cases h
    rfl
  · cases h

/-- The specialised decoders answer their own variant alone, and the opaque one keeps the type (C4). -/
theorem frameType_of_decodeRaw {raw : RawFrame} {f : Frame} (h : decodeRaw raw = .frame f) :
    f.frameType = raw.frameType := by
  by_cases hat : raw.frameType = atResponseType
  · rw [decodeRaw_of_atResponse hat] at h
    rw [frameType_of_decodeAtResponse h, hat]
  by_cases hio : raw.frameType = ioSampleType
  · rw [decodeRaw_of_ioSample hio] at h
    rw [frameType_of_decodeIoSample h, hio]
  · rw [decodeRaw_of_other hat hio] at h
    cases h
    rfl

/-- The instruction that a raw frame's type selects reports `decodeRaw` of the frame. -/
theorem exists_decode_rawFrame (raw : RawFrame) : ∃ i, decode (.frameData (raw.frameType :: raw.payload)) = .ok i ∧
    ∀ s : State, exec i s = .next { s with out := { s.out with decoded := some (decodeRaw raw) } } := by
  rw [decode, decodeFrameData]
  by_cases hat : raw.frameType = atResponseType
  · exact ⟨_, if_pos hat, fun s => by rw [exec_atResponse, decodeRaw_of_atResponse hat]⟩
  rw [if_neg hat]
  by_cases hio : raw.frameType = ioSampleType
  · exact ⟨_, if_pos hio, fun s => by rw [exec_ioSample, decodeRaw_of_ioSample hio]⟩
  · exact ⟨_, if_neg hio, fun s => by rw [exec_opaqueFrame, decodeRaw_of_other hat hio]⟩

theorem step_rawFrame {s : State} {raw : RawFrame} {rest : List Stimulus} (hinputs : s.inputs = .rawFrame raw :: rest) :
    step s = .next { s with inputs := rest, out := { Output.quiet with decoded := some (decodeRaw raw) } } := by
  obtain ⟨i, hdecode, hexec⟩ := exists_decode_rawFrame raw
  rw [step_of_decode hinputs hdecode, hexec]
  rfl

/-- Settles O34: `step_rawFrame`, and `decodeRaw` by the three kinds of type. -/
theorem rawFrameIsDecodedByType : Obligations.RawFrameIsDecodedByType := fun _ _ _ hinputs =>
  ⟨step_rawFrame hinputs, decodeRaw_of_atResponse, decodeRaw_of_ioSample, decodeRaw_of_other,
    fun _ => frameType_of_decodeRaw⟩

end Sys2Proof.Machine

/-! The FrameEncoder's result (R170 to R175): the eight bytes as the wire frame of a frame type and a payload, the ports
after BUILD_AT, and the parser's reception of that frame. -/

namespace Sys2Proof.Machine

open Config

/-! ### The frame built (R171, R173) -/

/-- The wire frame of the AT-command type and payload is the AT-command frame (R79). -/
theorem frameBytes_atCommand (c0 c1 : Byte) : frameBytes atApiId [atFrameId, c0, c1] =
    atFrameBytes c0 c1 (compute (sumBytes [atApiId, atFrameId, c0, c1])) :=
  frameBytes_of_atShape (atShape_eq_some_iff.mpr ⟨rfl, rfl⟩)

/-- For two ASCII bytes the result is that wire frame (R171). -/
theorem buildAtPorts_of_ascii {c0 c1 : Byte} (h0 : c0.toNat ≤ 0x7F) (h1 : c1.toNat ≤ 0x7F) :
    buildAtPorts c0 c1 = .frame (frameBytes atApiId [atFrameId, c0, c1]) := by
  have hascii : ¬(c0.getLsbD 7 || c1.getLsbD 7) = true := by
    rw [Bool.or_eq_true, getLsbD_seven_iff, getLsbD_seven_iff]
    omega
  rw [buildAtPorts, if_neg hascii, frameBytes_atCommand]

/-- The result written out byte by byte (R171). -/
theorem buildAtPorts_bytes {c0 c1 : Byte} (h0 : c0.toNat ≤ 0x7F) (h1 : c1.toNat ≤ 0x7F) : buildAtPorts c0 c1 =
    .frame [0x7E, 0x00, 0x04, 0x08, 0x01, c0, c1, 0xFF - (0x08 + 0x01 + c0 + c1)] := by
  rw [buildAtPorts_of_ascii h0 h1, frameBytes_atCommand, compute_sumBytes_cons]
  rfl

/-- Whatever the encoder builds is the wire frame. -/
theorem eq_frameBytes_of_buildAtPorts {c0 c1 : Byte} {bytes : List Byte} (h : buildAtPorts c0 c1 = .frame bytes) :
    bytes = frameBytes atApiId [atFrameId, c0, c1] := by
  have hascii : ¬(0x80 ≤ c0.toNat ∨ 0x80 ≤ c1.toNat) := by
    rw [← buildAtPorts_eq_invalidCommand_iff, h]
    exact nofun
  rw [buildAtPorts_of_ascii (by omega) (by omega)] at h
  exact (EncodeResult.frame.inj h).symm

/-- BUILD_AT leaves the encoder's result on its ports. -/
theorem encoded_of_exec_buildAt {s t : State} {c0 c1 : Byte} (h : exec (.buildAt c0 c1) s = .next t) :
    t.out.encoded = some (buildAtPorts c0 c1) := by
  obtain rfl := Host.Outcome.next.inj h
  rfl

theorem State.encFrame_of_invalidCommand {s : State} (h : s.out.encoded = some .invalidCommand) (i : Nat) :
    s.encFrame i = none := by
  simp [State.encFrame, h]

theorem buildAtCommandFrame_of_length_ne_two {cmd : List Byte} (h : cmd.length ≠ 2) :
    buildAtCommandFrame cmd = .invalidCommand := by
  unfold buildAtCommandFrame
  split
  · exact absurd rfl h
  · rfl

/-- Settles O28: `buildAtPorts_bytes` for ASCII bytes and `buildAtPorts_eq_invalidCommand_iff` for others, as the result
and then on the ports. -/
theorem buildAtMakesFrameOrError : Obligations.BuildAtMakesFrameOrError := by
  refine ⟨fun s c0 c1 h0 h1 => ?_, fun s c0 c1 h => ?_, fun s t c0 c1 hexec => ⟨fun h0 h1 => ?_, fun h => ?_⟩,
    fun _ _ => rfl, fun _ => buildAtCommandFrame_of_length_ne_two⟩
  · rw [exec_buildAt, buildAtPorts_bytes h0 h1]
  · rw [exec_buildAt, (buildAtPorts_eq_invalidCommand_iff c0 c1).mpr h]
  · have hencoded := encoded_of_exec_buildAt hexec
    refine ⟨(State.encErr_eq_false_iff hencoded).mpr ⟨h0, h1⟩, ?_⟩
    rw [buildAtPorts_bytes h0 h1] at hencoded
    simp only [State.encFrame_of_frame hencoded]
    rfl
  · have hencoded := encoded_of_exec_buildAt hexec
    refine ⟨(State.encErr_eq_true_iff hencoded).mpr h, State.encFrame_of_invalidCommand ?_⟩
    rw [hencoded, (buildAtPorts_eq_invalidCommand_iff c0 c1).mpr h]

/-! ### The frame received (R175) -/

/-- The encoder's frame can be received where neither command byte nor the checksum is a start marker (R176). -/
theorem receivable_atCommand {c0 c1 : Byte} (h0 : c0 ≠ startMarker) (h1 : c1 ≠ startMarker)
    (hk : compute (sumBytes [atApiId, atFrameId, c0, c1]) ≠ startMarker) :
    Receivable atApiId [atFrameId, c0, c1] := by
  have hlength : ∀ b ∈ lengthBytes 3, b ≠ startMarker := by decide
  have hpayload : ∀ b ∈ [atFrameId, c0, c1], b ≠ startMarker := by
    simp only [List.forall_mem_cons]
    exact ⟨by decide, h0, h1, nofun⟩
  exact ⟨by decide, by decide, by simp, hpayload, hlength, hk⟩

theorem Tag.inProgress_eq_false_iff (t : Tag) : t.inProgress = false ↔ t = .idle ∨ t = .rejected := by
  cases t <;> decide

/-- Settles O52: what the encoder builds is a receivable frame, and such a frame is received from every state. -/
theorem encoderParserRoundTrip : Obligations.EncoderParserRoundTrip := by
  intro s c0 c1 bytes hbuilt h0 h1 hk
  obtain rfl := eq_frameBytes_of_buildAtPorts hbuilt
  have hrec := receivable_atCommand h0 h1 fun h => hk (congrArg some h)
  rw [feedAll_frameBytes_from_any s hrec]
  refine ⟨rfl, ?_⟩
  simp only [← Tag.inProgress_eq_false_iff]
  cases s.st.inProgress <;> rfl

end Sys2Proof.Machine

/-! Exceptions and reports (R180 to R193): the class that raises each exception, what raising it leaves, how many
reports a stream can lead to, and the one step that does not complete. -/

namespace Sys2Proof.Machine

open Config

/-! ### The classes that raise (R181, R190) -/

/-- The step class of the byte `b` that raises an exception (R181). -/
def FramingError.raisedBy (b : Byte) : FramingError → Instr
  | .checksumFailed => .cksumBad b
  | .zeroLengthFrame => .lenLoZero
  | .zeroFrameType => .typeZero
  | .framePreempted => .preempt

theorem FramingError.exec_raisedBy (x : FramingError) (b : Byte) (s : State) :
    exec (x.raisedBy b) s = .next (s.raise x) := by
  cases x <;> rfl

theorem FramingError.event_inj {x y : FramingError} : x.event = y.event ↔ x = y := by
  cases x <;> cases y <;> decide

theorem FramingError.event_ne_cont (x : FramingError) : x.event ≠ .cont := by cases x <;> nofun

theorem FramingError.event_ne_frameComplete (x : FramingError) (raw : RawFrame) : x.event ≠ .frameComplete raw := by
  cases x <;> nofun

section Selected

variable {p : ParserState} {b : Byte}

/-- The effect of a byte is what the meaning of the selected class reports. -/
theorem SelectedWhen.byteEffect {i : Instr} {q : ParserState} {e : FrameEvent} (h : SelectedWhen i p b)
    (hexec : exec i { parser := p, inputs := [], out := .quiet } =
      .next (State.report { parser := p, inputs := [], out := .quiet } q e)) : p.byteEffect b = (q, e) := by
  have hclass := exec_classOf { parser := p, inputs := [], out := .quiet } b
  rw [classOf_eq_of_selectedWhen h, hexec] at hclass
  have hreport := Host.Outcome.next.inj hclass
  exact Prod.ext (congrArg State.parser hreport).symm (Option.some_inj.mp (congrArg State.event hreport)).symm

/-- A class that raises leaves the cleared state of its exception, and its event (R190). -/
theorem SelectedWhen.byteEffect_raisedBy {x : FramingError} (h : SelectedWhen (x.raisedBy b) p b) :
    p.byteEffect b = (.cleared x.tagAfter, x.event) :=
  h.byteEffect (x.exec_raisedBy b _)

/-- A byte reports Continue, or completes a frame, or raises an exception (R82, R181). -/
theorem ParserState.byteEffect_cases (p : ParserState) (b : Byte) :
    (p.byteEffect b).2 = .cont ∨ (∃ raw, p.byteEffect b = (.cleared .idle, .frameComplete raw)) ∨
      ∃ x : FramingError, SelectedWhen (x.raisedBy b) p b := by
  obtain ⟨i, hi⟩ := exists_selectedWhen p b
  cases i with
  | start | restart | garbage c | absorb c | lenHi c | lenLo c | typeByte c | data c =>
    exact .inl (congrArg Prod.snd (hi.byteEffect rfl))
  | cksumOk c => exact .inr (.inl ⟨_, hi.byteEffect rfl⟩)
  | cksumBad c =>
    obtain ⟨hst, hb, hk, rfl⟩ := hi
    exact .inr (.inr ⟨.checksumFailed, hst, hb, hk, rfl⟩)
  | lenLoZero => exact .inr (.inr ⟨.zeroLengthFrame, hi⟩)
  | typeZero => exact .inr (.inr ⟨.zeroFrameType, hi⟩)
  | preempt => exact .inr (.inr ⟨.framePreempted, hi⟩)
  | reset | noData | buildAt c0 c1 | apiFrame t q | atCommand c0 c1 k | atResponse q | ioSample q
  | opaqueFrame t q => exact hi.elim

/-- An exception is reported exactly where the class that raises it is selected (R181). -/
theorem ParserState.byteEffect_event_iff (p : ParserState) (b : Byte) (x : FramingError) :
    (p.byteEffect b).2 = x.event ↔ SelectedWhen (x.raisedBy b) p b := by
  refine ⟨fun hevent => ?_, fun h => by rw [h.byteEffect_raisedBy]⟩
  obtain hcont | ⟨raw, hraw⟩ | ⟨y, hy⟩ := p.byteEffect_cases b
  · exact absurd (hevent.symm.trans hcont) x.event_ne_cont
  · rw [hraw] at hevent
    exact absurd hevent.symm (x.event_ne_frameComplete raw)
  · rw [hy.byteEffect_raisedBy, FramingError.event_inj] at hevent
    exact hevent ▸ hy

/-- A reported exception leaves its cleared state (R190). -/
theorem ParserState.byteEffect_cleared_of_event {x : FramingError} (h : (p.byteEffect b).2 = x.event) :
    (p.byteEffect b).1 = .cleared x.tagAfter := by
  rw [((p.byteEffect_event_iff b x).mp h).byteEffect_raisedBy]

end Selected

/-- Settles O40: the step of a byte has its effect, and the event of an exception tells what it leaves. -/
theorem exceptionEntryClearsParser : Obligations.ExceptionEntryClearsParser := by
  intro s t b enc rest hinputs hstep
  rw [step_byte_eq s b enc rest hinputs] at hstep
  obtain rfl := Host.Outcome.next.inj hstep
  have hcleared : ∀ x : FramingError, some (s.parser.byteEffect b).2 = some x.event →
      (s.parser.byteEffect b).1 = .cleared x.tagAfter :=
    fun x h => ParserState.byteEffect_cleared_of_event (Option.some_inj.mp h)
  exact ⟨rfl, hcleared .checksumFailed, fun h => h.elim (hcleared .zeroLengthFrame)
    (hcleared .zeroFrameType), hcleared .framePreempted⟩

/-- Settles O41: the cause is the selection of the class that raises; in RLL the invariants make its two zero bytes the
length zero. -/
theorem exceptionCauses : Obligations.ExceptionCauses := by
  intro p b ⟨_, hlow, _, _⟩
  rw [feed_eq]
  refine ⟨(p.byteEffect_event_iff b .checksumFailed).trans ?_, (p.byteEffect_event_iff b .zeroLengthFrame).trans ?_,
    p.byteEffect_event_iff b .zeroFrameType, (p.byteEffect_event_iff b .framePreempted).trans ?_⟩
  · simp only [FramingError.raisedBy, SelectedWhen, and_true]
  · refine and_congr_right fun hst => ?_
    obtain ⟨hr, -⟩ := hlow hst
    exact (lengthWithLow_eq_zero_iff hr b).symm
  · exact and_rotate.symm

/-! ### Reports and start markers (R188) -/

/-- The events that report something: every event but Continue. -/
def FrameEvent.isReport (e : FrameEvent) : Bool := decide (e ≠ .cont)

theorem countP_isReport_cons (e : FrameEvent) (es : List FrameEvent) :
    (e :: es).countP FrameEvent.isReport = es.countP FrameEvent.isReport + e.isReport.toNat := by
  rw [List.countP_cons, ← Bool.cond_eq_ite]
  rfl

/-- Any byte but a start marker that reports something ends the frame that was in progress: a frame in progress pays for
the one report. -/
theorem ParserState.report_add_inProgress_le {p : ParserState} {b : Byte} (hb : b ≠ startMarker) :
    (p.byteEffect b).2.isReport.toNat + (p.byteEffect b).1.st.inProgress.toNat ≤ p.st.inProgress.toNat := by
  cases hprogress : p.st.inProgress with
  | false =>
    rw [ParserState.byteEffect_waiting (p.st.inProgress_eq_false_iff.mp hprogress) hb, hprogress]
    exact le_rfl
  | true =>
    obtain hcont | ⟨raw, hraw⟩ | ⟨x, hx⟩ := p.byteEffect_cases b
    · rw [hcont]
      exact (Nat.zero_add _).trans_le (Bool.toNat_le _)
    · rw [hraw]
      exact le_rfl
    · rw [hx.byteEffect_raisedBy]
      cases x with
      | checksumFailed | zeroLengthFrame | zeroFrameType => decide
      | framePreempted =>
        obtain ⟨-, -, rfl⟩ := hx
        exact absurd rfl hb

/-- A start marker pays for the frame it begins, and the frame in progress for its preemption (R103). -/
theorem ParserState.report_add_inProgress_startMarker (p : ParserState) :
    (p.byteEffect startMarker).2.isReport.toNat + (p.byteEffect startMarker).1.st.inProgress.toNat =
      p.st.inProgress.toNat + 1 := by
  rw [ParserState.byteEffect_startMarker]
  cases p.st.inProgress <;> rfl

/-- In every stream from every state the reports are at most as many as the start markers and the frame that was in
progress before them. -/
theorem reports_feedAll_le (p : ParserState) (bs : List Byte) :
    (feedAll p bs).2.countP FrameEvent.isReport ≤ bs.count startMarker + p.st.inProgress.toNat := by
  induction bs generalizing p with
  | nil => exact Nat.zero_le _
  | cons b bs ih =>
    have hrest := ih (p.byteEffect b).1
    rw [feedAll_cons, feed_eq, countP_isReport_cons]
    by_cases hb : b = startMarker
    · have hmarker := p.report_add_inProgress_startMarker
      rw [hb] at hrest ⊢
      rw [List.count_cons_self]
      omega
    · have hother := ParserState.report_add_inProgress_le (p := p) hb
      rw [List.count_cons_of_ne hb]
      omega

/-- Settles O51: at reset no frame is in progress. -/
theorem reportsAtMostStartMarkers : Obligations.ReportsAtMostStartMarkers := by
  intro bs
  rw [← List.countP_eq_length_filter]
  exact reports_feedAll_le .reset bs

/-! ### Completion (R85, R193) -/

theorem step_encoder {s : State} {c0 c1 : Byte} {rest : List Stimulus} (hinputs : s.inputs = .encoder c0 c1 :: rest) :
    step s = .next
      { s with inputs := rest, out := { Output.quiet with encoded := some (buildAtPorts c0 c1) } } :=
  step_of_decode hinputs rfl

theorem step_atFrame {s : State} {c0 c1 k : Byte} {rest : List Stimulus}
    (hinputs : s.inputs = .atFrame c0 c1 k :: rest) : step s = .next
      { parser := s.parser, inputs := (atFrameBytes c0 c1 k).map Stimulus.byte ++ rest, out := .quiet } :=
  step_of_decode hinputs (decodeWire_atFrameBytes c0 c1 k)

theorem step_of_decode_error {s : State} {x : Stimulus} {rest : List Stimulus} {e : DecodeError}
    (hinputs : s.inputs = x :: rest) (hdecode : decode (x.code s.parser) = .error e) : step s = reject e := by
  simp only [step, hinputs, hdecode]

/-- Beyond the capacity the two length bytes, which hold less than 65536, do not announce the payload (R72, R85). -/
theorem decodeWire_frameBytes_of_lt (t : Byte) {p : List Byte} (h : payloadCap < p.length) :
    decodeWire (frameBytes t p) = .error .zeroLength ∨ decodeWire (frameBytes t p) = .error .lengthMismatch := by
  obtain ⟨hi, lo, hbytes, -, -⟩ := frameBytes_eq t p
  have hfield := (hi ++ lo).isLt
  have hmismatch : (p ++ [compute (sumBytes (t :: p))]).length ≠ (hi ++ lo).toNat := by
    rw [List.length_append, List.length_singleton]
    rw [payloadCap_eq] at h
    omega
  rw [hbytes, decodeWire, if_neg (not_not.mpr rfl), if_pos hmismatch]
  by_cases hz : (hi ++ lo).toNat = 0
  · exact .inl (if_pos hz)
  · exact .inr (if_neg hz)

theorem step_frame_refused {s : State} {t : Byte} {p : List Byte} {rest : List Stimulus}
    (hinputs : s.inputs = .frame t p :: rest) (h : payloadCap < p.length) : ∃ r, step s = .refused r := by
  obtain hdecode | hdecode := decodeWire_frameBytes_of_lt t h
  · exact ⟨_, step_of_decode_error hinputs hdecode⟩
  · exact ⟨_, step_of_decode_error hinputs hdecode⟩

/-- Settles O36: the step of each kind of stimulus is known, and only a frame's payload has a bound. -/
theorem everyDefinedStepCompletes : Obligations.EveryDefinedStepCompletes := by
  refine ⟨fun s hbound => ?_, fun s t p rest => step_frame_refused⟩
  cases hinputs : s.inputs with
  | nil => exact ⟨_, step_nil s hinputs⟩
  | cons x rest =>
    cases x with
    | parser rst inValid b enc => exact ⟨_, step_ports s rst inValid b enc rest hinputs⟩
    | encoder c0 c1 => exact ⟨_, step_encoder hinputs⟩
    | frame t p => exact ⟨_, step_frame hinputs (hbound t p rest hinputs)⟩
    | atFrame c0 c1 k => exact ⟨_, step_atFrame hinputs⟩
    | rawFrame raw => exact ⟨_, step_rawFrame hinputs⟩

end Sys2Proof.Machine
